-- ==== Sys2Proof/Word.lean ====
section
/-!
DEFINITION. The words the block moves (spec/00_scope.md R9, R10): the 32-bit command word, and vectors over
GF(2) as bit vectors whose bit `i` is vector position `i`, bit 0 least significant.
-/
namespace Sys2Proof

/-- The word on the `cmd` port (30_encoding.md R80). -/
abbrev CmdWord := BitVec 32

/-- A vector over GF(2) of length `w`: position `i` is bit `i` (00_scope.md R10). Its sum is exclusive or and its
product is and (R12); it has no carry and no sign. -/
abbrev Vec (w : Nat) := BitVec w

/-- `1 << p`: the vector with a single 1 at position `p` (00_scope.md R14). -/
def Vec.single (w p : Nat) : Vec w := 1#w <<< p

end Sys2Proof
end

