-- ==== Sys2Proof/Config.lean ====
section
/-!
DEFINITION. What an instance of the block fixes at elaboration (00_scope.md R7), and the free values: what the spec
leaves unspecified, as constants with no body (93_implementation_defined.md section 1).
-/
namespace Sys2Proof

/-- The elaboration parameters `N` and `K` of one instance, with their bounds (00_scope.md R7). The bounds travel with
the data, so that no instance outside them can be written. DESIGN CHOICE, log entry 12. Safe. -/
structure Params where
  /-- `N`, the codeword length. -/
  n : Nat
  /-- `K`, the information length. -/
  k : Nat
  two_le_n : 2 ≤ n
  n_le_65536 : n ≤ 65536
  one_le_k : 1 ≤ k
  k_lt_n : k < n
deriving DecidableEq, Repr

/-- `R = N − K`, the syndrome length and the width of one HT row (00_scope.md R7). -/
abbrev Params.r (p : Params) : Nat := p.n - p.k

/-- The result ports of 10_state.md R37, those that `rsp_valid` covers (R38). -/
inductive ResultPort
  | rspCode
  | decErr
  | decCorr
  | decIdx
  | dout
  | synd
  | modeQ
  | cfgOk
deriving DecidableEq, Repr

/-- The elaboration parameters of the instance that `State.reset` is: the (14,10) code, the one code the source works
through (95_test_vectors.md W1). DESIGN CHOICE, log entry 1: the spec fixes no instance; every state carries its
own parameters, and a statement about all states is about every instance. -/
def Config.resetParams : Params where
  n := 14
  k := 10
  two_le_n := by decide
  n_le_65536 := by decide
  one_le_k := by decide
  k_lt_n := by decide

/-- FREE VALUE: what a result port shows while `rsp_valid = 0` (10_state.md R38, 70_reset_and_hazards.md R191): any
value, which may change from cycle to cycle, so it is applied to the clock cycle. Log entry 4. -/
opaque Config.unspecifiedPort (port : ResultPort) (cycle w : Nat) : BitVec w

/-- FREE VALUE: the contents of an HT row whose `RV` bit is 0 (10_state.md R25). No command's result depends on it.
Log entry 5. -/
opaque Config.unwrittenRow (i w : Nat) : BitVec w

/-- FREE VALUE: the `din` operand of a command when no command is in flight. The spec has no such operand; the clock
edge commits a command only from BUSY, which holds the sampled word. Log entry 7. -/
opaque Config.absentDin (w : Nat) : BitVec w

end Sys2Proof
end

