-- ==== Sys2Proof/Syntax.lean ====
section
/-!
DEFINITION. The six commands (30_encoding.md R85, spec/opcode_table.json), one constructor per row. The `din` operand
(R84) is no part of the command word: it is sampled with it and stands in the state (10_state.md R36).
-/
namespace Sys2Proof

/-- The decoding mode a SETMODE names and `MODE` holds (10_state.md R27): 0 is CORRECT and 1 is DETECT. -/
inductive Mode
  | correct
  | detect
deriving DecidableEq, Repr

/-- The commands of 30_encoding.md R85. A row index is the unsigned value of ARG (R83); DESIGN CHOICE, log
entry 10: a natural number, bounded by `Instr.wellFormed`. Safe. -/
inductive Instr
  /-- NOP: do nothing (42_control.md R140). -/
  | nop
  /-- WRROW: write HT row `i` from `din` (40_matrix.md R100). -/
  | wrrow (i : Nat)
  /-- RDROW: read HT row `i` back into DOUT (40_matrix.md R102). -/
  | rdrow (i : Nat)
  /-- SETMODE: set the decoding mode (42_control.md R142). -/
  | setmode (m : Mode)
  /-- DECODE: decode the received word on `din` (41_decode.md R120). -/
  | decode
  /-- CLEAR: return to the reset state under command (42_control.md R144). -/
  | clear
deriving DecidableEq, Repr

end Sys2Proof
end

