-- ==== Sys2Proof/WellFormed.lean ====
section
/-!
DEFINITION. Which commands a command word can hold: the row index fits the 16-bit ARG field (30_encoding.md R83, and
R90: an assembler rejects an index of 65536 or more). An index in [N, 65535] is well formed; the block answers it
with BAD_INDEX.
-/
namespace Sys2Proof

/-- The command's operands fit the fields of 30_encoding.md R80. -/
def Instr.wellFormed : Instr → Bool
  | .nop => true
  | .wrrow i => decide (i < 65536)
  | .rdrow i => decide (i < 65536)
  | .setmode _ => true
  | .decode => true
  | .clear => true

end Sys2Proof
end

