-- ==== Sys2Proof/Decode.lean ====
section
/-!
DEFINITION. The classification of command words (30_encoding.md R86), total over all 2^32 words, and the encoder
from the same table (R85). A word that is no legal command is named: BadOpcode or BadReserved.
-/
namespace Sys2Proof

/-- The three classes of 30_encoding.md R86. -/
inductive Decoded
  /-- OPC is 0x6 to 0xF: the command ends with BAD_OPCODE (R87). -/
  | badOpcode
  /-- A defined OPC with a reserved bit set: the command ends with BAD_RESERVED (R87). -/
  | badReserved
  /-- A legal command. -/
  | legal (i : Instr)
deriving DecidableEq, Repr

/-- `OPC = cmd[31:28]` (30_encoding.md R80, R81). -/
def opcOf (cmd : CmdWord) : BitVec 4 := cmd.extractLsb' 28 4

/-- `RSV = cmd[27:16]` (30_encoding.md R80, R82). -/
def rsvOf (cmd : CmdWord) : BitVec 12 := cmd.extractLsb' 16 12

/-- `ARG = cmd[15:0]` (30_encoding.md R80, R83). -/
def argOf (cmd : CmdWord) : BitVec 16 := cmd.extractLsb' 0 16

/-- The mode a MODE bit selects (10_state.md R27). -/
def modeOfBit (m : Bool) : Mode := if m then .detect else .correct

/-- The MODE bit of a mode (10_state.md R27). -/
def Mode.bit : Mode → Bool
  | .correct => false
  | .detect => true

/-- `classify(cmd)` of 30_encoding.md R86. It reads the command word alone. -/
def classify (cmd : CmdWord) : Decoded :=
  if 6 ≤ (opcOf cmd).toNat then .badOpcode
  else if rsvOf cmd ≠ 0 then .badReserved
  else
    match (opcOf cmd).toNat with
    | 0 => if argOf cmd ≠ 0 then .badReserved else .legal .nop
    | 1 => .legal (.wrrow (argOf cmd).toNat)
    | 2 => .legal (.rdrow (argOf cmd).toNat)
    | 3 => if (argOf cmd).extractLsb' 1 15 ≠ 0 then .badReserved else .legal (.setmode (modeOfBit ((argOf cmd).getLsbD 0)))
    | 4 => if argOf cmd ≠ 0 then .badReserved else .legal .decode
    | _ => if argOf cmd ≠ 0 then .badReserved else .legal .clear

/-- The decoder: the command a word holds, if it holds one. -/
def decode (cmd : CmdWord) : Option Instr :=
  match classify cmd with
  | .legal i => some i
  | .badOpcode => none
  | .badReserved => none

/-- A word from its three fields, RSV zero (30_encoding.md R80). -/
def cmdWord (opc : BitVec 4) (arg : BitVec 16) : CmdWord := opc ++ 0#12 ++ arg

/-- The encoder (30_encoding.md R85). -/
def encode : Instr → CmdWord
  | .nop => cmdWord 0 0
  | .wrrow i => cmdWord 1 (BitVec.ofNat 16 i)
  | .rdrow i => cmdWord 2 (BitVec.ofNat 16 i)
  | .setmode m => cmdWord 3 (BitVec.ofNat 16 m.bit.toNat)
  | .decode => cmdWord 4 0
  | .clear => cmdWord 5 0

/-- The `mask` column of the table of 30_encoding.md R85. -/
def Instr.rowMask : Instr → CmdWord
  | .nop => 0xFFFFFFFF#32
  | .wrrow _ => 0xFFFF0000#32
  | .rdrow _ => 0xFFFF0000#32
  | .setmode _ => 0xFFFFFFFE#32
  | .decode => 0xFFFFFFFF#32
  | .clear => 0xFFFFFFFF#32

/-- The `match` column of the table of 30_encoding.md R85. -/
def Instr.rowMatch : Instr → CmdWord
  | .nop => 0x00000000#32
  | .wrrow _ => 0x10000000#32
  | .rdrow _ => 0x20000000#32
  | .setmode _ => 0x30000000#32
  | .decode => 0x40000000#32
  | .clear => 0x50000000#32

/-- The command word whose lower `nbits` bits are those of `w`, every bit above them zero. -/
def tableWord (nbits w : Nat) : CmdWord := BitVec.ofNat 32 (w % 2 ^ nbits)

/-- The command the decoder reads from a word given as spec/opcode_table.json numbers its bits. Every command is one
32-bit word (30_encoding.md R89), so more than 32 bits are no command. -/
def decodeTableWord (nbits w : Nat) : Option Instr :=
  if nbits ≤ 32 then decode (tableWord nbits w) else none

end Sys2Proof
end

