-- ==== Sys2Proof/Machine/State.lean ====
section
/-!
DEFINITION. The state of the block (10_state.md), the record at that file's head, and with it what the model needs
to be one deterministic machine: the instance's parameters, what the host does at the coming clock edges, and the
number of the clock cycle.
-/
namespace Sys2Proof.Machine

/-- The result codes of 60_exceptions.md R160; the values 6 and 7 are never written, so the type has six values
(93_implementation_defined.md). Their port values are `ResultCode.bits`. -/
inductive ResultCode
  | ok
  | badOpcode
  | badReserved
  | badIndex
  | notConfigured
  | rowUnwritten
deriving DecidableEq, Repr

/-- The HT row store (10_state.md R22, 20_memory.md R60), the block's one memory: the rows whose `RV` bit is 1 (R24),
each with its index, in rising order of the index. An unlisted row is unwritten (`RV = 0`, R25). Its location is
one `w`-bit row, not a byte, so a cell is an index and a row. -/
abbrev Memory (w : Nat) := List (Nat × Vec w)

/-- The canonical form of the row store of an instance with `n` rows: indices strictly rising, each below `n`. An
unlisted row reads as no value, so no entry can equal it. -/
abbrev Memory.wf {w : Nat} (n : Nat) (rows : Memory w) : Prop :=
  (rows.map Prod.fst).Pairwise (· < ·) ∧ ∀ i ∈ rows.map Prod.fst, i < n

/-- The handshake phase `PH` (10_state.md R36). BUSY holds the sampled command and data word, and the clock edges
left to the commit. -/
inductive Phase (p : Params)
  | reset
  | idle
  | busy (cmd : CmdWord) (din : Vec p.n) (remaining : Nat)
deriving DecidableEq, Repr

/-- The state record of 10_state.md, at the parameters `p`. `RV` (R24) is which rows `ht` lists; `CFG_OK` (R26) is not
stored. -/
structure Block (p : Params) where
  /-- HT and RV (R22 to R25). -/
  ht : Memory p.r
  /-- MODE (R27). -/
  mode : Mode
  /-- CODE (R28). -/
  code : ResultCode
  /-- ERR (R29). -/
  err : Bool
  /-- CORR (R30). -/
  corr : Bool
  /-- IDX (R31). -/
  idx : BitVec 16
  /-- DOUT (R32). -/
  dout : Vec p.n
  /-- SYND (R33). -/
  synd : Vec p.r
  /-- PH (R36). -/
  phase : Phase p
deriving DecidableEq, Repr

/-- What happens at one rising edge of `clk` from outside: the input ports of 10_state.md R37, and the latency the
instance takes for a command accepted at this edge. `LAT` is open (00_scope.md R8): it is `extraLat + 1`, with
`extraLat` an unconstrained draw for that command. Log entries 2 and 3. -/
structure Edge (p : Params) where
  rst : Bool
  cmdValid : Bool
  cmd : CmdWord
  din : Vec p.n
  extraLat : Nat
deriving DecidableEq, Repr

/-- The machine: one instance of the block with its parameters, and the model's own fields. One instance alone is
modelled (DESIGN CHOICE, log entry 14, safe), and none before its first reset (DEDUCED, log entry 8, safe). -/
structure State where
  /-- The elaboration parameters (00_scope.md R7); no step changes them. -/
  params : Params
  /-- The block's state (10_state.md). -/
  blk : Block params
  /-- MODEL'S OWN: what the host does at the coming edges, the next one first; where the list ends the host drives
  `rst = 0` and `cmd_valid = 0`. Log entry 2. -/
  inputs : List (Edge params)
  /-- MODEL'S OWN: the number of the clock cycle, which the free values of the ports are applied to. Log entry 4. -/
  cycle : Nat
deriving DecidableEq, Repr

/-- Why the machine stops with a fault. It has no constructor: the block has no fault state (60_exceptions.md R165,
93_implementation_defined.md), and every command ends with a result code (00_scope.md R15). Safe: nothing is left out
by it. Log entry 9. -/
inductive Fault
deriving DecidableEq, Repr

/-- Why the model gives no meaning. -/
inductive Refusal
  /-- Answered by an arm of `exec` for a command with no meaning yet; no arm answers it now. Safe: the machine stops
  where the hardware goes on. -/
  | notModelled (mnemonic : String)
deriving DecidableEq, Repr

/-- Every register of the block at its reset value (10_state.md R39), `PH = RESET` as the reset edge leaves it
(70_reset_and_hazards.md R180). -/
def Block.reset (p : Params) : Block p where
  ht := []
  mode := .correct
  code := .ok
  err := false
  corr := false
  idx := 0
  dout := 0
  synd := 0
  phase := .reset

/-- An instance with the parameters `p` right after a reset edge, with nothing from the host to come. -/
def State.resetOf (p : Params) : State where
  params := p
  blk := Block.reset p
  inputs := []
  cycle := 0

/-- The machine right after reset (10_state.md R39), at `Config.resetParams`. Log entries 1 and 6. -/
def State.reset : State := State.resetOf Config.resetParams

end Sys2Proof.Machine
end

