-- ==== Sys2Proof/Machine/Ops.lean ====
section
/-!
DEFINITION. The named operations: the row store, the row-valid bits, the result-code check every command runs, and
the one way a command ends with a code other than OK. The block has no trap (60_exceptions.md R165): `Block.raise`
is all there is to refusing a command.
-/
namespace Sys2Proof.Machine

variable {p : Params} {w : Nat}

/-- The row stored at index `i`, or none where the row is unwritten (10_state.md R22, R25). -/
def Memory.read (rows : Memory w) (i : Nat) : Option (Vec w) :=
  match rows with
  | [] => none
  | (a, v) :: rest => if a = i then some v else Memory.read rest i

/-- `MemWrite(i, R, v)` (00_scope.md R14): row `i` becomes `v`, in its place in the rising order. -/
def Memory.write (rows : Memory w) (i : Nat) (v : Vec w) : Memory w :=
  match rows with
  | [] => [(i, v)]
  | (a, u) :: rest =>
    if i < a then (i, v) :: (a, u) :: rest
    else if i = a then (i, v) :: rest
    else (a, u) :: Memory.write rest i v

/-- `RV[i]` (10_state.md R24): row `i` is written. -/
def Block.rv (b : Block p) (i : Nat) : Bool := (b.ht.read i).isSome

/-- `HT[i]`, `MemRead(i, R)` (00_scope.md R14). Where `RV[i] = 0` the contents are a free value (10_state.md R25). -/
def Block.row (b : Block p) (i : Nat) : Vec p.r := (b.ht.read i).getD (Config.unwrittenRow i p.r)

/-- `CFG_OK` (10_state.md R26): the AND of the N bits of RV. -/
def Block.cfgOk (b : Block p) : Bool := (List.range p.n).all b.rv

/-- `CODE <- c` (10_state.md R28). -/
def Block.setCode (b : Block p) (c : ResultCode) : Block p := { b with code := c }

/-- `raise RESULT(c)` (00_scope.md R14, 60_exceptions.md R161): the command ends, and CODE is all that changes. -/
def Block.raise (b : Block p) (c : ResultCode) : Block p := b.setCode c

/-- `HT[i] <- v; RV[i] <- 1` (40_matrix.md R100). -/
def Block.writeRow (b : Block p) (i : Nat) (v : Vec p.r) : Block p := { b with ht := b.ht.write i v }

/-- `MODE <- m` (10_state.md R27). -/
def Block.setMode (b : Block p) (m : Mode) : Block p := { b with mode := m }

/-- `DOUT <- v` (10_state.md R32). -/
def Block.setDout (b : Block p) (v : Vec p.n) : Block p := { b with dout := v }

/-- The five result registers a successful DECODE writes (41_decode.md R120, 70_reset_and_hazards.md R192). -/
def Block.setResults (b : Block p) (synd : Vec p.r) (err corr : Bool) (idx : BitVec 16) (dout : Vec p.n) : Block p :=
  { b with synd := synd, err := err, corr := corr, idx := idx, dout := dout }

/-- The writes of CLEAR but for CODE (42_control.md R144). -/
def Block.clear (b : Block p) : Block p :=
  { b with ht := [], mode := .correct, err := false, corr := false, idx := 0, dout := 0, synd := 0 }

/-- `PH <- ph` (10_state.md R36). -/
def Block.setPhase (b : Block p) (ph : Phase p) : Block p := { b with phase := ph }

/-- The checks of 60_exceptions.md R164 on a legal command, against the state: the first cause in the order BAD_INDEX,
NOT_CONFIGURED, ROW_UNWRITTEN, or none (R163). -/
def Block.check (b : Block p) (i : Instr) : Option ResultCode :=
  match i with
  | .wrrow a => if p.n ≤ a then some .badIndex else none
  | .rdrow a => if p.n ≤ a then some .badIndex else if b.rv a then none else some .rowUnwritten
  | .decode => if b.cfgOk then none else some .notConfigured
  | .nop => none
  | .setmode _ => none
  | .clear => none

/-- The machine with its block replaced. -/
def State.withBlk (s : State) (b : Block s.params) : State := { s with blk := b }

/-- A legal command at its commit (60_exceptions.md R164): `RESULT(c)` where a check fails, else the command's own
writes `op` and `CODE <- OK`. -/
def State.runCommand (s : State) (i : Instr) (op : Block s.params → Block s.params) :
    Host.Outcome State Fault Refusal :=
  match s.blk.check i with
  | some c => .next (s.withBlk (s.blk.raise c))
  | none => .next (s.withBlk ((op s.blk).setCode .ok))

end Sys2Proof.Machine
end

