-- ==== Sys2Proof/Machine/Operands.lean ====
section
/-!
DEFINITION. The operand forms of the data words (30_encoding.md R84, 20_memory.md R62, R67). The operands inside the
command word are assembled in Sys2Proof/Decode.lean (R83).
-/
namespace Sys2Proof.Machine

variable {p : Params}

/-- The `din` word sampled with the command in flight (10_state.md R36, 70_reset_and_hazards.md R187). With no command
in flight there is none, and it is a free value (log entry 7). -/
def Block.operand (b : Block p) : Vec p.n :=
  match b.phase with
  | .busy _ din _ => din
  | .reset => Config.absentDin p.n
  | .idle => Config.absentDin p.n

/-- The row value of a WRROW, `din[R−1:0]`; `din[N−1:R]` is ignored (30_encoding.md R84). -/
def rowOperand (din : Vec p.n) : Vec p.r := din.setWidth p.r

/-- `zext_N(v)` of a row (00_scope.md R14). -/
def zextRow (v : Vec p.r) : Vec p.n := v.setWidth p.n

/-- The word with the bit at the matching position flipped, `r xor (1 << q)`; the word itself where there is no
matching position (41_decode.md R123). -/
def flipAt (r : Vec p.n) (hit : Option Nat) : Vec p.n :=
  match hit with
  | some q => r ^^^ Vec.single p.n q
  | none => r

end Sys2Proof.Machine
end

