-- ==== Sys2Proof/Machine/Flags.lean ====
section
/-!
DEFINITION. The flags ERR and CORR, the index IDX that goes with CORR, and the port values of CODE and MODE.
-/
namespace Sys2Proof.Machine

variable {w : Nat}

/-- `ERR <- (S != 0)` (10_state.md R29, 41_decode.md R121). -/
def errFlag (S : Vec w) : Bool := S != 0

/-- CORR: a bit was flipped (10_state.md R30). -/
def corrFlag (hit : Option Nat) : Bool := hit.isSome

/-- IDX: `zext_16` of the flipped position, and 0 where none was flipped (10_state.md R31). -/
def idxValue (hit : Option Nat) : BitVec 16 :=
  match hit with
  | some q => BitVec.ofNat 16 q
  | none => 0

/-- The 3-bit value of a result code (60_exceptions.md R160). -/
def ResultCode.bits : ResultCode → BitVec 3
  | .ok => 0
  | .badOpcode => 1
  | .badReserved => 2
  | .badIndex => 3
  | .notConfigured => 4
  | .rowUnwritten => 5

/-- The 1-bit value of MODE (10_state.md R27). -/
def modeBits (m : Mode) : BitVec 1 := BitVec.ofBool m.bit

end Sys2Proof.Machine
end

