-- ==== Sys2Proof/Machine/Control.lean ====
section
/-!
DEFINITION. The control commands (spec/42_control.md): NOP, SETMODE and CLEAR.
-/
namespace Sys2Proof.Machine

/-- NOP (42_control.md R140): only `CODE <- OK`. -/
def execNop (s : State) : Host.Outcome State Fault Refusal :=
  s.runCommand .nop fun b => b

/-- SETMODE (42_control.md R142). -/
def execSetmode (m : Mode) (s : State) : Host.Outcome State Fault Refusal :=
  s.runCommand (.setmode m) fun b => b.setMode m

/-- CLEAR (42_control.md R144). -/
def execClear (s : State) : Host.Outcome State Fault Refusal :=
  s.runCommand .clear fun b => b.clear

end Sys2Proof.Machine
end

