-- ==== Sys2Proof/Machine/Decoding.lean ====
section
/-!
DEFINITION. The decode command (spec/41_decode.md): the syndrome, the search of the HT rows, and DECODE.
-/
namespace Sys2Proof.Machine

variable {p : Params}

/-- The syndrome `S = r·HT mod 2` (41_decode.md R121), by the loop of R120: the XOR of the rows at the positions where
`r` has a 1. -/
def Block.syndrome (b : Block p) (r : Vec p.n) : Vec p.r :=
  (List.range p.n).foldl (fun S i => if r.getLsbD i then S ^^^ b.row i else S) 0

/-- The first row that equals `S`, in the order of the row index (41_decode.md R123, R126). -/
def Block.firstMatch (b : Block p) (S : Vec p.r) : Option Nat :=
  (List.range p.n).find? fun i => b.row i == S

/-- The position DECODE flips: only in correction mode, and only for a non-zero syndrome (41_decode.md R122 to R125). -/
def Block.flipPosition (b : Block p) (S : Vec p.r) : Option Nat :=
  match b.mode with
  | .correct => if S = 0 then none else b.firstMatch S
  | .detect => none

/-- The writes of a successful DECODE of the word `r`, but for CODE (41_decode.md R120). -/
def Block.decodeWord (b : Block p) (r : Vec p.n) : Block p :=
  let S := b.syndrome r
  let hit := b.flipPosition S
  b.setResults S (errFlag S) (corrFlag hit) (idxValue hit) (flipAt r hit)

/-- DECODE (41_decode.md R120). -/
def execDecode (s : State) : Host.Outcome State Fault Refusal :=
  s.runCommand .decode fun b => b.decodeWord b.operand

end Sys2Proof.Machine
end

