-- ==== Sys2Proof/Machine/Matrix.lean ====
section
/-!
DEFINITION. The matrix store commands (spec/40_matrix.md): WRROW and RDROW.
-/
namespace Sys2Proof.Machine

/-- WRROW (40_matrix.md R100): row `i` takes `din[R−1:0]` and becomes valid. -/
def execWrrow (i : Nat) (s : State) : Host.Outcome State Fault Refusal :=
  s.runCommand (.wrrow i) fun b => b.writeRow i (rowOperand b.operand)

/-- RDROW (40_matrix.md R102): DOUT takes row `i`, zero-extended. -/
def execRdrow (i : Nat) (s : State) : Host.Outcome State Fault Refusal :=
  s.runCommand (.rdrow i) fun b => b.setDout (zextRow (b.row i))

end Sys2Proof.Machine
end

