-- ==== Sys2Proof/Machine/Dispatch.lean ====
section
/-!
DEFINITION. One arm per command. The state's BUSY phase holds the data word of the command (10_state.md R36).
-/
namespace Sys2Proof.Machine

def exec (i : Instr) (s : State) : Host.Outcome State Fault Refusal :=
  match i with
  | .nop => Sys2Proof.Machine.execNop s
  | .wrrow a => Sys2Proof.Machine.execWrrow a s
  | .rdrow a => Sys2Proof.Machine.execRdrow a s
  | .setmode m => Sys2Proof.Machine.execSetmode m s
  | .decode => Sys2Proof.Machine.execDecode s
  | .clear => Sys2Proof.Machine.execClear s

end Sys2Proof.Machine
end

