-- ==== Sys2Proof/Machine/Handshake.lean ====
section
/-!
DEFINITION. One rising edge of `clk` (spec/70_reset_and_hazards.md): reset, acceptance, waiting and commit. It surrounds
the commands' meanings with waiting and reset and adds nothing else (00_scope.md R15).
-/
namespace Sys2Proof.Machine

/-- An edge at which the host drives `rst = 0` and `cmd_valid = 0`. -/
def Edge.quiet (p : Params) : Edge p where
  rst := false
  cmdValid := false
  cmd := 0
  din := 0
  extraLat := 0

/-- `LAT` of a command accepted at this edge: any number from 1 on (00_scope.md R8). -/
def Edge.latency {p : Params} (e : Edge p) : Nat := e.extraLat + 1

/-- What the host does at the next edge. -/
def State.edgeNow (s : State) : Edge s.params := s.inputs.headD (Edge.quiet s.params)

/-- The machine after an edge that leaves the block as `b`: the edge is consumed and a new clock cycle begins. DESIGN
CHOICE, log entry 15: at a reset edge too. Safe. -/
def State.afterEdge (s : State) (b : Block s.params) : State :=
  { s with blk := b, inputs := s.inputs.tail, cycle := s.cycle + 1 }

/-- The machine after the edge of a commit that left it as `t`: `PH` becomes IDLE (70_reset_and_hazards.md R190). -/
def State.committed (t : State) : State := t.afterEdge (t.blk.setPhase .idle)

/-- The outcome with a function applied to its next state. -/
def onNext (f : State → State) (o : Host.Outcome State Fault Refusal) : Host.Outcome State Fault Refusal :=
  match o with
  | .next t => .next (f t)
  | .fault r => .fault r
  | .refused r => .refused r

/-- The effect of the accepted command word `cmd` (60_exceptions.md R164, `check`): a word that is no legal command
ends with its code and changes nothing else (30_encoding.md R87); a legal one is run. -/
def State.runWord (s : State) (cmd : CmdWord) : Host.Outcome State Fault Refusal :=
  match classify cmd with
  | .badOpcode => .next (s.withBlk (s.blk.raise .badOpcode))
  | .badReserved => .next (s.withBlk (s.blk.raise .badReserved))
  | .legal i => exec i s

/-- The block after an edge with `rst = 0` in the phase IDLE: the offered command, if any, is accepted and sampled
(70_reset_and_hazards.md R186, R187). -/
def Block.afterOffer {p : Params} (b : Block p) (e : Edge p) : Block p :=
  if e.cmdValid then b.setPhase (.busy e.cmd e.din e.latency) else b

/-- One rising edge of `clk`. `rst = 1` wins over everything (70_reset_and_hazards.md R180, R181). Otherwise RESET
becomes IDLE (R182); IDLE accepts an offer (R186); BUSY counts down and ignores offers (R188), and at zero the command
commits and the phase becomes IDLE (R190). DEDUCED, log entry 13: a count of 0, which R36 excludes, is taken like 1. Safe. -/
def clockEdge (s : State) : Host.Outcome State Fault Refusal :=
  if s.edgeNow.rst then .next (s.afterEdge (Block.reset s.params))
  else
    match s.blk.phase with
    | .reset => .next (s.afterEdge (s.blk.setPhase .idle))
    | .idle => .next (s.afterEdge (s.blk.afterOffer s.edgeNow))
    | .busy cmd din m =>
      if m - 1 = 0 then onNext State.committed (s.runWord cmd)
      else .next (s.afterEdge (s.blk.setPhase (.busy cmd din (m - 1))))

end Sys2Proof.Machine
end

