-- ==== Sys2Proof/Machine/Ports.lean ====
section
/-!
DEFINITION. The output ports (10_state.md R37, R38), as seen in the clock cycle that the state is in: the cycle after the
edge that left it (95_test_vectors.md section 3.10). DEDUCED, log entry 16.
-/
namespace Sys2Proof.Machine

/-- The output ports of 10_state.md R37. -/
structure Ports (p : Params) where
  cmdReady : BitVec 1
  rspValid : BitVec 1
  rspCode : BitVec 3
  decErr : BitVec 1
  decCorr : BitVec 1
  decIdx : BitVec 16
  dout : Vec p.n
  synd : Vec p.r
  modeQ : BitVec 1
  cfgOk : BitVec 1
deriving DecidableEq, Repr

/-- `PH = IDLE`, which `cmd_ready` and `rsp_valid` show (10_state.md R37, 70_reset_and_hazards.md R180, R182, R190). -/
def Block.isIdle {p : Params} (b : Block p) : Bool :=
  match b.phase with
  | .idle => true
  | .reset => false
  | .busy _ _ _ => false

/-- The ports with `rsp_valid = 1`: each result port shows its register or function (10_state.md R38). -/
def Block.validPorts {p : Params} (b : Block p) : Ports p where
  cmdReady := 1
  rspValid := 1
  rspCode := b.code.bits
  decErr := BitVec.ofBool b.err
  decCorr := BitVec.ofBool b.corr
  decIdx := b.idx
  dout := b.dout
  synd := b.synd
  modeQ := modeBits b.mode
  cfgOk := BitVec.ofBool b.cfgOk

/-- The ports with `rsp_valid = 0`: every result port is a free value (10_state.md R38). -/
def invalidPorts (p : Params) (cycle : Nat) : Ports p where
  cmdReady := 0
  rspValid := 0
  rspCode := Config.unspecifiedPort .rspCode cycle 3
  decErr := Config.unspecifiedPort .decErr cycle 1
  decCorr := Config.unspecifiedPort .decCorr cycle 1
  decIdx := Config.unspecifiedPort .decIdx cycle 16
  dout := Config.unspecifiedPort .dout cycle p.n
  synd := Config.unspecifiedPort .synd cycle p.r
  modeQ := Config.unspecifiedPort .modeQ cycle 1
  cfgOk := Config.unspecifiedPort .cfgOk cycle 1

/-- The output ports in the current clock cycle (10_state.md R37, R38). -/
def State.ports (s : State) : Ports s.params :=
  if s.blk.isIdle then s.blk.validPorts else invalidPorts s.params s.cycle

end Sys2Proof.Machine
end

