-- ==== Sys2Proof/Machine/Step.lean ====
section
/-!
DEFINITION. One step: one rising edge of `clk`; and the state whose next step runs a given command word.
-/
namespace Sys2Proof.Machine

/-- One step is one rising edge of `clk` (70_reset_and_hazards.md). -/
def step (s : State) : Host.Outcome State Fault Refusal := clockEdge s

/-- The state with the command word in flight and its commit due at the next edge, at which the host does nothing:
the block fetches no instructions (10_state.md R21), the host offers them. The data word is zero. Log entry 6. -/
def State.withFetchWord (s : State) (nbits w : Nat) : State :=
  { s with
    blk := s.blk.setPhase (.busy (tableWord nbits w) 0 1)
    inputs := Edge.quiet s.params :: s.inputs }

end Sys2Proof.Machine
end

