-- ==== Sys2Proof/Machine/Reference.lean ====
section
/-!
DEFINITION. The host side, as reference data (10_state.md section 7: "normative for what the source's matrix is", not
behaviour of the block; 00_scope.md R5): the capability search, the reference matrix, the encoder of codewords, the
assembler of 30_encoding.md section 6 and the assembly of a batch's results. The block runs none of it. DESIGN CHOICE, log
entry 11.
-/
namespace Sys2Proof.Machine

variable {p : Params} {w : Nat}

/-- The vector of a position-order string, position 0 first (00_scope.md R11). -/
def ofPositions (bits : List Bool) : Vec w :=
  (List.range w).foldl (fun v i => if bits.getD i false then v ||| Vec.single w i else v) 0

/-- `C(n,0) + … + C(n,t)` (10_state.md R40). -/
def binomialSum (n t : Nat) : Nat := ((List.range (t + 1)).map (Nat.choose n)).sum

/-- The loop of 10_state.md R40 from `tc` on: the first count whose sum exceeds the bound. The first argument bounds the
iterations; `N + 1` is enough, since the sum reaches 2^N at `tc = N`. -/
def capabilityLoop (n bound : Nat) (fuel tc : Nat) : Nat :=
  match fuel with
  | 0 => tc
  | fuel + 1 => if binomialSum n tc ≤ bound then capabilityLoop n bound fuel (tc + 1) else tc

/-- `tc` of `chooseErrorCapability` (10_state.md R40). -/
def referenceTc (p : Params) : Nat := capabilityLoop p.n (2 ^ p.r) (p.n + 1) 0 - 1

/-- `dmin = 2·tc + 1`, a design target (10_state.md R40, R49; 90_conflicts.md C4). -/
def referenceDmin (p : Params) : Nat := 2 * referenceTc p + 1

/-- The `m`-element selections of a list, in lexicographic order of position (10_state.md R41). -/
def combinations (m : Nat) (l : List Nat) : List (List Nat) :=
  match m, l with
  | 0, _ => [[]]
  | _ + 1, [] => []
  | m + 1, c :: cs => (combinations m cs).map (c :: ·) ++ combinations (m + 1) cs

/-- The row with ones exactly at the given columns; position index `c` is column `c` (10_state.md R41, R42). -/
def rowOfColumns (cols : List Nat) : Vec w := cols.foldl (fun v c => v ||| Vec.single w c) 0

/-- The candidate rows in the order of 10_state.md R41: weights from `dmin − 1` up to R, each in lexicographic order. -/
def candidateRows (p : Params) : List (Vec p.r) :=
  (List.range' (referenceDmin p - 1) (p.r + 1 - (referenceDmin p - 1))).flatMap fun m =>
    (combinations m (List.range p.r)).map rowOfColumns

/-- `P`, the first K candidates (10_state.md R41), or none where there are fewer: the host's configuration error of
R47. -/
def referenceP (p : Params) : Option (List (Vec p.r)) :=
  if ((candidateRows p).take p.k).length = p.k then some ((candidateRows p).take p.k) else none

/-- The rows of the identity matrix of size R: row `j` is `1 << j` (10_state.md R43). -/
def identityRows (p : Params) : List (Vec p.r) := (List.range p.r).map (Vec.single p.r)

/-- The rows of `[P; I_R]` (10_state.md R43). -/
def systematicRows (p : Params) (P : List (Vec p.r)) : List (Vec p.r) := P ++ identityRows p

/-- The reference HT (10_state.md R43). -/
def referenceRows (p : Params) : Option (List (Vec p.r)) := (referenceP p).map (systematicRows p)

/-- The parity bits `⊕ (U[i] & P[i][j])` of a source word (10_state.md R44). -/
def parityOf (P : List (Vec p.r)) (U : Vec p.k) : Vec p.r :=
  (List.range p.k).foldl (fun S i => if U.getLsbD i then S ^^^ P.getD i 0 else S) 0

/-- `V = U·G mod 2` for `G = [I | P]`: U in the bits below K, the parity bits above (10_state.md R44, 20_memory.md
R64). -/
def encodeWord (P : List (Vec p.r)) (U : Vec p.k) : Vec p.n :=
  U.setWidth p.n ||| (parityOf P U).setWidth p.n <<< p.k

/-- The source word of a decoded word, `DOUT[K−1:0]` (41_decode.md R132). -/
def sourceWord (v : Vec p.n) : Vec p.k := v.setWidth p.k

/-- The row store with the rows of a list at the indices from `i` on, all valid. -/
def rowsFrom (i : Nat) (rows : List (Vec w)) : Memory w :=
  match rows with
  | [] => []
  | v :: rest => (i, v) :: rowsFrom (i + 1) rest

/-- A line of the host's command stream (30_encoding.md R90): the command, and the data word it needs, if it needs
one. -/
structure AsmLine (p : Params) where
  instr : Instr
  din : Option (Vec p.n)
deriving DecidableEq, Repr

/-- The edge at which the host offers a line: a line that needs no data word leaves `din` to the host (R90, "don't
care"). -/
def AsmLine.offer (a : AsmLine p) (dontCare : Vec p.n) (extraLat : Nat) : Edge p where
  rst := false
  cmdValid := true
  cmd := encode a.instr
  din := a.din.getD dontCare
  extraLat := extraLat

/-- `WRROW <i>, <row>`; the assembler rejects an index of 65536 or more and a row wider than R bits (R90). -/
def asmWrrow (p : Params) (i row : Nat) : Option (AsmLine p) :=
  if i < 65536 ∧ row < 2 ^ p.r then some ⟨.wrrow i, some (zextRow (BitVec.ofNat p.r row))⟩ else none

/-- `RDROW <i>`; the assembler rejects an index of 65536 or more (30_encoding.md R90). -/
def asmRdrow (p : Params) (i : Nat) : Option (AsmLine p) :=
  if i < 65536 then some ⟨.rdrow i, none⟩ else none

/-- `DECODE <word>`; the assembler rejects a word wider than N bits (30_encoding.md R90). -/
def asmDecode (p : Params) (word : Nat) : Option (AsmLine p) :=
  if word < 2 ^ p.n then some ⟨.decode, some (BitVec.ofNat p.n word)⟩ else none

/-- `NOP` (30_encoding.md R90). -/
def asmNop (p : Params) : AsmLine p := ⟨.nop, none⟩

/-- `SETMODE CORRECT` and `SETMODE DETECT` (30_encoding.md R90). -/
def asmSetmode (p : Params) (m : Mode) : AsmLine p := ⟨.setmode m, none⟩

/-- `CLEAR` (30_encoding.md R90). -/
def asmClear (p : Params) : AsmLine p := ⟨.clear, none⟩

/-- The pseudo-instruction `CORRECT <word>` (30_encoding.md R91). -/
def asmCorrect (word : Vec p.n) : List (AsmLine p) := [asmSetmode p .correct, ⟨.decode, some word⟩]

/-- The pseudo-instruction `DETECT <word>` (30_encoding.md R91). -/
def asmDetect (word : Vec p.n) : List (AsmLine p) := [asmSetmode p .detect, ⟨.decode, some word⟩]

/-- The WRROWs of the rows of a list at the indices from `i` on. -/
def loadFrom (i : Nat) (rows : List (Vec p.r)) : List (AsmLine p) :=
  match rows with
  | [] => []
  | v :: rest => ⟨.wrrow i, some (zextRow v)⟩ :: loadFrom (i + 1) rest

/-- The pseudo-instruction `LOADHT <r_0>, …, <r_{N−1}>` (30_encoding.md R91): it takes exactly N rows. -/
def asmLoadHt (rows : List (Vec p.r)) : Option (List (AsmLine p)) :=
  if rows.length = p.n then some (loadFrom 0 rows) else none

/-- The pseudo-instruction `LOADREF` (30_encoding.md R91), where the reference matrix exists (10_state.md R47). -/
def asmLoadRef (p : Params) : Option (List (AsmLine p)) := (referenceRows p).bind asmLoadHt

/-- The detection result of a batch: the positions of the words whose DECODE gave `ERR = 1` (41_decode.md R131). -/
def batchIndices (verdicts : List Bool) : List Nat :=
  (List.range verdicts.length).filter fun i => verdicts.getD i false

end Sys2Proof.Machine
end

