-- ==== Sys2Proof/Safety.lean ====
section
/-!
DEFINITION. What claims are stated in: the invariant of the block's state, completion of a step, and the
conditions of spec/ on the stored matrix and on the host.
-/
namespace Sys2Proof.Machine

variable {p : Params}

/-- The outcome is a next state: no command can hang or fault the block (00_scope.md R15). -/
def Completes (o : Host.Outcome State Fault Refusal) : Prop := ∃ t, o = .next t

/-- BUSY has at least one edge left to its commit (10_state.md R36). -/
def Phase.wf (ph : Phase p) : Bool :=
  match ph with
  | .busy _ _ m => decide (1 ≤ m)
  | .reset => true
  | .idle => true

/-- What every step keeps: the row store is canonical and inside the address map (20_memory.md R60); `ERR` says whether
`SYND` is non-zero (10_state.md R29, R33); a set `CORR` comes with a set `ERR` and a legal bit position, a clear one
with `IDX = 0` (R30, R31); BUSY has an edge left (R36); and in the phase RESET all state has its reset value
(70_reset_and_hazards.md R180). -/
abbrev Block.Inv (b : Block p) : Prop :=
  b.ht.wf p.n ∧ b.err = (b.synd != 0) ∧ (b.corr = true → b.err = true ∧ b.idx.toNat < p.n) ∧
    (b.corr = false → b.idx = 0) ∧ b.phase.wf = true ∧ (b.phase = .reset → b = Block.reset p)

/-- The invariant of the machine. -/
abbrev State.Inv (s : State) : Prop := s.blk.Inv

/-- Every row of HT is written, with the rows `rows` (the premise of most claims about DECODE; 10_state.md R26). -/
def Block.holdsRows (b : Block p) (rows : Nat → Vec p.r) : Prop := ∀ i < p.n, b.ht.read i = some (rows i)

/-- The premise of 41_decode.md R129: every row is non-zero and no two rows are equal. -/
def rowsDistinct (n : Nat) {w : Nat} (rows : Nat → Vec w) : Prop :=
  (∀ i < n, rows i ≠ 0) ∧ ∀ i < n, ∀ j < n, rows i = rows j → i = j

/-- The host may read the result ports: `rsp_valid = 1` (70_reset_and_hazards.md R191). -/
def State.resultsReadable (s : State) : Prop := s.ports.rspValid = 1

/-- The host drives `rst = 0` at each of the next `m` edges. -/
def State.noResetFor (s : State) (m : Nat) : Prop := ∀ e ∈ s.inputs.take m, e.rst = false

end Sys2Proof.Machine
end

