-- ==== Sys2Proof/Certificates/Slice0/Obligations.lean ====
section
/-!
DEFINITION. The statements for the provers. Each docstring names the rule of spec/ it formalises. A result is stated as
the whole next state where that can be written, so that the frame (every register and every row not named keeps its
value) is part of the statement.
-/
open Sys2Proof Sys2Proof.Machine

/-! Encoding (spec/30_encoding.md) -/

/-- R85, R86: classifying the encoding of a command whose operands fit gives that command, at every operand value. -/
def Obligations.ClassifyOfEncode : Prop :=
  ∀ i : Instr, i.wellFormed = true → classify (encode i) = .legal i

/-- R85, R86: a legal word is the encoding of the one command it is classified as, and that command's operands fit. -/
def Obligations.EncodeOfClassify : Prop :=
  ∀ (w : CmdWord) (i : Instr), classify w = .legal i → i.wellFormed = true ∧ encode i = w

/-- R87: exactly the words with OPC 0x6 to 0xF are BadOpcode; exactly the other words with a reserved bit set are
BadReserved. The fields are taken from the word's value: OPC is bits 31:28, RSV bits 27:16, ARG bits 15:0. -/
def Obligations.ReservedWordsNamed : Prop :=
  ∀ w : CmdWord,
    (classify w = .badOpcode ↔ 6 ≤ w.toNat / 2 ^ 28) ∧
    (classify w = .badReserved ↔
      w.toNat / 2 ^ 28 < 6 ∧
        (w.toNat / 2 ^ 16 % 2 ^ 12 ≠ 0 ∨
          (w.toNat / 2 ^ 28 ∈ [0, 4, 5] ∧ w.toNat % 2 ^ 16 ≠ 0) ∨
          (w.toNat / 2 ^ 28 = 3 ∧ w.toNat % 2 ^ 16 / 2 ≠ 0)))

/-- R85: some words of the pattern table, one a family and more, written bit by bit. -/
def Obligations.TableWordsClassified : Prop :=
  classify 0b00000000000000000000000000000000#32 = .legal .nop ∧
  classify 0b00010000000000000000000000001101#32 = .legal (.wrrow 13) ∧
  classify 0b00010000000000001111111111111111#32 = .legal (.wrrow 65535) ∧
  classify 0b00100000000000000000000000000011#32 = .legal (.rdrow 3) ∧
  classify 0b00110000000000000000000000000000#32 = .legal (.setmode .correct) ∧
  classify 0b00110000000000000000000000000001#32 = .legal (.setmode .detect) ∧
  classify 0b01000000000000000000000000000000#32 = .legal .decode ∧
  classify 0b01010000000000000000000000000000#32 = .legal .clear

/-! The row store (spec/20_memory.md) -/

/-- R72, R101: after a write of row `i`, row `i` reads as the value written and every other row as before. -/
def Obligations.RowReadAfterWrite : Prop :=
  ∀ (w : Nat) (rows : Memory w) (i j : Nat) (v : Vec w),
    (rows.write i v).read j = if j = i then some v else rows.read j

/-- R69: writing the same value to the same row again changes nothing. -/
def Obligations.RowWriteIdempotent : Prop :=
  ∀ (w : Nat) (rows : Memory w) (i : Nat) (v : Vec w), (rows.write i v).write i v = rows.write i v

/-- The model's canonical form of the row store (log entry 5): two stores in it that read alike are the same data. -/
def Obligations.CanonicalStoresEqual : Prop :=
  ∀ (w n : Nat) (a b : Memory w), a.wf n → b.wf n → (∀ i, a.read i = b.read i) → a = b

/-! The matrix store commands (spec/40_matrix.md) -/

/-- R100: WRROW. For a row of the address map: row `i` takes `din[R−1:0]` and becomes valid, CODE is OK, every other row
and its RV bit and every other register keep their values, and if every other row was valid CFG_OK becomes 1. For an
index of N or more: BAD_INDEX, and CODE alone changes. For a word with OPC 1: BAD_RESERVED, and CODE alone changes,
where RSV is not zero, else WRROW of the row ARG names. -/
def Obligations.WrrowWritesRow : Prop :=
  ∀ s : State,
    (∀ i < s.params.n, ∃ b : Block s.params, exec (.wrrow i) s = .next (s.withBlk b) ∧
      (∃ v, b.ht.read i = some v ∧ ∀ j < s.params.r, v.getLsbD j = s.blk.operand.getLsbD j) ∧
      (∀ a, a ≠ i → b.ht.read a = s.blk.ht.read a) ∧
      b = { s.blk with ht := b.ht, code := .ok } ∧
      ((∀ a < s.params.n, a ≠ i → s.blk.rv a = true) → b.cfgOk = true)) ∧
    (∀ i, s.params.n ≤ i → exec (.wrrow i) s = .next (s.withBlk { s.blk with code := .badIndex })) ∧
    (∀ w : CmdWord, w.toNat / 2 ^ 28 = 1 →
      s.runWord w = if w.toNat / 2 ^ 16 % 2 ^ 12 ≠ 0 then .next (s.withBlk { s.blk with code := .badReserved })
        else exec (.wrrow (w.toNat % 2 ^ 16)) s)

/-- R84: the bits of `din` from R on do not matter to WRROW: two words that agree below R leave the same block but for
the word held in BUSY. -/
def Obligations.WrrowIgnoresUpperDin : Prop :=
  ∀ (s : State) (i : Nat) (c : CmdWord) (m : Nat) (d d' : Vec s.params.n),
    (∀ j < s.params.r, d.getLsbD j = d'.getLsbD j) →
    ∃ b : Block s.params,
      exec (.wrrow i) (s.withBlk (s.blk.setPhase (.busy c d m))) = .next (s.withBlk (b.setPhase (.busy c d m))) ∧
      exec (.wrrow i) (s.withBlk (s.blk.setPhase (.busy c d' m))) = .next (s.withBlk (b.setPhase (.busy c d' m)))

/-- R102: RDROW. For a written row of the address map: DOUT takes the row, zero-extended to N bits, CODE is OK, and
everything else keeps its value. For an index of N or more BAD_INDEX, for an unwritten row ROW_UNWRITTEN, and CODE alone
changes. For a word with OPC 2: BAD_RESERVED where RSV is not zero, else RDROW of the row ARG names. -/
def Obligations.RdrowReadsRow : Prop :=
  ∀ s : State,
    (∀ (i : Nat) (v : Vec s.params.r), i < s.params.n → s.blk.ht.read i = some v →
      ∃ d : Vec s.params.n, d.toNat = v.toNat ∧
        exec (.rdrow i) s = .next (s.withBlk { s.blk with dout := d, code := .ok })) ∧
    (∀ i, s.params.n ≤ i → exec (.rdrow i) s = .next (s.withBlk { s.blk with code := .badIndex })) ∧
    (∀ i < s.params.n, s.blk.ht.read i = none →
      exec (.rdrow i) s = .next (s.withBlk { s.blk with code := .rowUnwritten })) ∧
    (∀ w : CmdWord, w.toNat / 2 ^ 28 = 2 →
      s.runWord w = if w.toNat / 2 ^ 16 % 2 ^ 12 ≠ 0 then .next (s.withBlk { s.blk with code := .badReserved })
        else exec (.rdrow (w.toNat % 2 ^ 16)) s)

/-- R66: WRROW and RDROW with an index of N or more access nothing and end with BAD_INDEX; CODE alone changes. With
N = 65536 no index of a command word is out of range. -/
def Obligations.IndexOutOfRangeIsBadIndex : Prop :=
  ∀ (s : State) (i : Nat),
    (s.params.n ≤ i →
      exec (.wrrow i) s = .next (s.withBlk { s.blk with code := .badIndex }) ∧
      exec (.rdrow i) s = .next (s.withBlk { s.blk with code := .badIndex })) ∧
    (s.params.n = 65536 → (Instr.wrrow i).wellFormed = true → i < s.params.n)

/-! The decode command (spec/41_decode.md) -/

/-- R121: with every row written, a DECODE sets SYND to the product `r·HT` over GF(2), column by column the exclusive
or of `r[i] & HT[i][j]` over the rows, and ERR to whether it is non-zero, in both modes; CODE is OK, and HT, RV, MODE
and PH keep their values. -/
def Obligations.DecodeSyndromeIsProduct : Prop :=
  ∀ (s : State) (rows : Nat → Vec s.params.r), s.blk.holdsRows rows →
    ∃ b : Block s.params, exec .decode s = .next (s.withBlk b) ∧
      (∀ j < s.params.r, b.synd.getLsbD j =
        ((List.range s.params.n).map fun i => s.blk.operand.getLsbD i && (rows i).getLsbD j).foldr xor false) ∧
      (b.err = true ↔ b.synd ≠ 0) ∧
      b = { s.blk with
        synd := b.synd, err := b.err, corr := b.corr, idx := b.idx, dout := b.dout, code := .ok }

/-- R123, R126: in correction mode, with a non-zero syndrome that some row equals, the lowest such index `q` is the bit
flipped: DOUT is `r xor (1 << q)`, CORR is 1 and IDX is `q`. -/
def Obligations.DecodeFlipsLowestMatch : Prop :=
  ∀ (s : State) (rows : Nat → Vec s.params.r) (q : Nat), s.blk.holdsRows rows → s.blk.mode = .correct →
    s.blk.syndrome s.blk.operand ≠ 0 → q < s.params.n → rows q = s.blk.syndrome s.blk.operand →
    (∀ j < q, rows j ≠ s.blk.syndrome s.blk.operand) →
    exec .decode s = .next (s.withBlk { s.blk with
      synd := s.blk.syndrome s.blk.operand, err := true, corr := true, idx := BitVec.ofNat 16 q,
      dout := s.blk.operand ^^^ (1#s.params.n <<< q), code := .ok })

/-- R127: in correction mode, with a non-zero syndrome that no row equals, the word passes through unmodified, CORR is 0
and CODE is OK. -/
def Obligations.DecodePassesThroughOnMiss : Prop :=
  ∀ (s : State) (rows : Nat → Vec s.params.r), s.blk.holdsRows rows → s.blk.mode = .correct →
    s.blk.syndrome s.blk.operand ≠ 0 → (∀ j < s.params.n, rows j ≠ s.blk.syndrome s.blk.operand) →
    exec .decode s = .next (s.withBlk { s.blk with
      synd := s.blk.syndrome s.blk.operand, err := true, corr := false, idx := 0,
      dout := s.blk.operand, code := .ok })

/-- R125: when the syndrome is zero no bit is flipped, in either mode, whatever the rows are; so an error on a codeword
at a position whose row is zero is neither corrected nor detected. -/
def Obligations.DecodeAcceptsZeroSyndrome : Prop :=
  ∀ (s : State) (rows : Nat → Vec s.params.r), s.blk.holdsRows rows →
    (s.blk.syndrome s.blk.operand = 0 ∨
      ∃ (V : Vec s.params.n) (i : Nat), s.blk.syndrome V = 0 ∧ i < s.params.n ∧ rows i = 0 ∧
        s.blk.operand = V ^^^ (1#s.params.n <<< i)) →
    exec .decode s = .next (s.withBlk { s.blk with
      synd := 0, err := false, corr := false, idx := 0, dout := s.blk.operand, code := .ok })

/-- R124: in detection mode the word is not changed, CORR and IDX are 0, and ERR says whether the syndrome is
non-zero. -/
def Obligations.DetectionLeavesWord : Prop :=
  ∀ (s : State) (rows : Nat → Vec s.params.r), s.blk.holdsRows rows → s.blk.mode = .detect →
    exec .decode s = .next (s.withBlk { s.blk with
      synd := s.blk.syndrome s.blk.operand, err := decide (s.blk.syndrome s.blk.operand ≠ 0), corr := false, idx := 0,
      dout := s.blk.operand, code := .ok })

/-- R123: in correction mode, when S is non-zero and some row equals S, DOUT is `r xor (1 << p)` with `p` the lowest such
index, CORR is 1 and IDX is `p`; in every other case DOUT is `r`, CORR is 0 and IDX is 0. At most one bit of `r` is
ever changed. -/
def Obligations.CorrectionModeResult : Prop :=
  ∀ (s : State) (rows : Nat → Vec s.params.r), s.blk.holdsRows rows → s.blk.mode = .correct →
    ∃ b : Block s.params, exec .decode s = .next (s.withBlk b) ∧
      ((∃ q < s.params.n, b.synd ≠ 0 ∧ rows q = b.synd ∧ (∀ j < q, rows j ≠ b.synd) ∧
          b.dout = s.blk.operand ^^^ (1#s.params.n <<< q) ∧ b.corr = true ∧ b.idx.toNat = q) ∨
        ((b.synd = 0 ∨ ∀ j < s.params.n, rows j ≠ b.synd) ∧
          b.dout = s.blk.operand ∧ b.corr = false ∧ b.idx = 0)) ∧
      (∀ i j, b.dout.getLsbD i ≠ s.blk.operand.getLsbD i → b.dout.getLsbD j ≠ s.blk.operand.getLsbD j → i = j)

/-- R129: a DECODE in correction mode of a codeword `V` with bit `i` flipped. With every row non-zero and no two rows
equal it gives the codeword back, CORR 1 and IDX `i`. Without that the guarantee fails: where row `i` is zero, S is zero
and nothing is flipped; where a row of a lower index equals row `i`, which is not zero, the lowest such index is
flipped. -/
def Obligations.SingleErrorCorrected : Prop :=
  ∀ (s : State) (rows : Nat → Vec s.params.r) (V : Vec s.params.n) (i : Nat), s.blk.holdsRows rows →
    s.blk.mode = .correct → s.blk.syndrome V = 0 → i < s.params.n → s.blk.operand = V ^^^ (1#s.params.n <<< i) →
    (rowsDistinct s.params.n rows → exec .decode s = .next (s.withBlk { s.blk with
      synd := rows i, err := true, corr := true, idx := BitVec.ofNat 16 i, dout := V, code := .ok })) ∧
    (rows i = 0 → exec .decode s = .next (s.withBlk { s.blk with
      synd := 0, err := false, corr := false, idx := 0, dout := V ^^^ (1#s.params.n <<< i), code := .ok })) ∧
    (∀ j < i, rows i ≠ 0 → rows j = rows i → (∀ a < j, rows a ≠ rows i) →
      exec .decode s = .next (s.withBlk { s.blk with
        synd := rows i, err := true, corr := true, idx := BitVec.ofNat 16 j,
        dout := V ^^^ (1#s.params.n <<< i) ^^^ (1#s.params.n <<< j), code := .ok }))

/-- R130: in detection mode a word is flagged exactly when its syndrome is non-zero: for a codeword `V` and an error
pattern `e`, exactly when `e·HT` is non-zero. With every row non-zero and no two equal, every pattern of weight 1 or 2
is flagged; a zero row, or two equal rows, give an unflagged pattern of weight 1 or 2. -/
def Obligations.DetectionFlags : Prop :=
  ∀ (s : State) (rows : Nat → Vec s.params.r), s.blk.holdsRows rows → s.blk.mode = .detect →
    ∃ b : Block s.params, exec .decode s = .next (s.withBlk b) ∧
      (b.err = true ↔ b.synd ≠ 0) ∧
      ∀ V : Vec s.params.n, s.blk.syndrome V = 0 →
        (∀ e, s.blk.operand = V ^^^ e → (b.err = true ↔ s.blk.syndrome e ≠ 0)) ∧
        (∀ i < s.params.n, s.blk.operand = V ^^^ (1#s.params.n <<< i) →
          (rowsDistinct s.params.n rows → b.err = true) ∧ (rows i = 0 → b.err = false)) ∧
        (∀ i < s.params.n, ∀ j < s.params.n, i ≠ j →
          s.blk.operand = V ^^^ (1#s.params.n <<< i) ^^^ (1#s.params.n <<< j) →
          (rowsDistinct s.params.n rows → b.err = true) ∧ (rows i = rows j → b.err = false))

/-- The checks of R120: a DECODE with some row of the address map unwritten ends with NOT_CONFIGURED, and CODE alone
changes; a word with OPC 4 and any other bit set ends with BAD_RESERVED, and CODE alone changes, and the word with no
other bit set is DECODE. -/
def Obligations.DecodeChecks : Prop :=
  ∀ s : State,
    (∀ i < s.params.n, s.blk.ht.read i = none →
      exec .decode s = .next (s.withBlk { s.blk with code := .notConfigured })) ∧
    (∀ w : CmdWord, w.toNat / 2 ^ 28 = 4 →
      s.runWord w = if w.toNat % 2 ^ 28 ≠ 0 then .next (s.withBlk { s.blk with code := .badReserved })
        else exec .decode s)

/-- R133: what a successful DECODE makes of the block depends on `din`, the rows and MODE: not on what CODE, ERR, CORR,
IDX, DOUT and SYND held, and not on the cycle or on what the host does later. -/
def Obligations.DecodeIsDeterministic : Prop :=
  ∀ (s : State) (code : ResultCode) (err corr : Bool) (idx : BitVec 16) (dout : Vec s.params.n)
    (synd : Vec s.params.r) (inputs : List (Edge s.params)) (cycle : Nat), s.blk.cfgOk = true →
    ∃ b : Block s.params, exec .decode s = .next (s.withBlk b) ∧
      exec .decode { s with
        blk := { s.blk with code := code, err := err, corr := corr, idx := idx, dout := dout, synd := synd },
        inputs := inputs, cycle := cycle } = .next { s with blk := b, inputs := inputs, cycle := cycle }

/-! The control commands (spec/42_control.md) -/

/-- R140: NOP sets CODE to OK and changes nothing else. A word with OPC 0 and any other bit set ends with BAD_RESERVED;
the word 0 is NOP. -/
def Obligations.NopWritesOnlyCode : Prop :=
  ∀ s : State, exec .nop s = .next (s.withBlk { s.blk with code := .ok }) ∧
    ∀ w : CmdWord, w.toNat / 2 ^ 28 = 0 →
      s.runWord w = if w.toNat % 2 ^ 28 ≠ 0 then .next (s.withBlk { s.blk with code := .badReserved })
        else exec .nop s

/-- R142: SETMODE sets MODE to its argument and CODE to OK and changes nothing else. A word with OPC 3 and any of the
bits 27:1 set ends with BAD_RESERVED, MODE unchanged; otherwise bit 0 is the mode, 0 for CORRECT and 1 for DETECT. -/
def Obligations.SetmodeWritesMode : Prop :=
  ∀ s : State, (∀ m, exec (.setmode m) s = .next (s.withBlk { s.blk with mode := m, code := .ok })) ∧
    ∀ w : CmdWord, w.toNat / 2 ^ 28 = 3 →
      s.runWord w = if w.toNat % 2 ^ 28 / 2 ≠ 0 then .next (s.withBlk { s.blk with code := .badReserved })
        else exec (.setmode (if w.getLsbD 0 then .detect else .correct)) s

/-- R144: CLEAR clears every RV bit, MODE and the result registers and sets CODE to OK: the architectural state is the
reset state, with the phase left to the edge. A word with OPC 5 and any other bit set ends with BAD_RESERVED. After
CLEAR, DECODE gives NOT_CONFIGURED and every RDROW of the address map ROW_UNWRITTEN. -/
def Obligations.ClearRestoresResetState : Prop :=
  ∀ s : State, exec .clear s = .next (s.withBlk { Block.reset s.params with phase := s.blk.phase }) ∧
    (∀ w : CmdWord, w.toNat / 2 ^ 28 = 5 →
      s.runWord w = if w.toNat % 2 ^ 28 ≠ 0 then .next (s.withBlk { s.blk with code := .badReserved })
        else exec .clear s) ∧
    ∀ t, exec .clear s = .next t →
      exec .decode t = .next (t.withBlk { t.blk with code := .notConfigured }) ∧
      ∀ i < t.params.n, exec (.rdrow i) t = .next (t.withBlk { t.blk with code := .rowUnwritten })

/-- R143: MODE persists over every step that is not a reset edge and does not commit a SETMODE or a CLEAR. -/
def Obligations.ModePersists : Prop :=
  ∀ s t : State, step s = .next t → s.edgeNow.rst = false →
    (∀ cmd din m, s.blk.phase = .busy cmd din m → m ≤ 1 →
      (∀ x, classify cmd ≠ .legal (.setmode x)) ∧ classify cmd ≠ .legal .clear) →
    t.blk.mode = s.blk.mode

/-! Who writes what (spec/10_state.md) -/

/-- R23: no command but WRROW and CLEAR changes a row or an RV bit. -/
def Obligations.OnlyWrrowAndClearChangeRows : Prop :=
  ∀ (s : State) (i : Instr), (∀ a, i ≠ .wrrow a) → i ≠ .clear →
    ∃ b : Block s.params, exec i s = .next (s.withBlk b) ∧ b.ht = s.blk.ht

/-- R24: over a step, `RV[i]` becomes or stays 1 exactly when the step commits a WRROW of the row `i` of the address map,
or `RV[i]` was 1 and the step is no reset edge and commits no CLEAR. -/
def Obligations.RowValidHistory : Prop :=
  ∀ (s t : State) (i : Nat), step s = .next t →
    (t.blk.rv i = true ↔
      s.edgeNow.rst = false ∧
        ((∃ cmd din m, s.blk.phase = .busy cmd din m ∧ m ≤ 1 ∧ classify cmd = .legal (.wrrow i) ∧ i < s.params.n) ∨
          (s.blk.rv i = true ∧
            ∀ cmd din m, s.blk.phase = .busy cmd din m → m ≤ 1 → classify cmd ≠ .legal .clear)))

/-- R29, R30, R31, R33: no command but DECODE and CLEAR writes ERR, CORR, IDX or SYND; R32: no command but those and
RDROW writes DOUT. -/
def Obligations.ResultRegistersKept : Prop :=
  ∀ (s : State) (i : Instr), i ≠ .decode → i ≠ .clear →
    ∃ b : Block s.params, exec i s = .next (s.withBlk b) ∧
      b.err = s.blk.err ∧ b.corr = s.blk.corr ∧ b.idx = s.blk.idx ∧ b.synd = s.blk.synd ∧
      ((∀ a, i ≠ .rdrow a) → b.dout = s.blk.dout)

/-- R34: no command reads CODE, ERR, CORR, IDX, DOUT or SYND. Run on two blocks that differ in these alone, a command
leaves the same HT, RV, MODE and CODE, and each result register is either written alike or kept. -/
def Obligations.OutputsNeverRead : Prop :=
  ∀ (s : State) (i : Instr) (code : ResultCode) (err corr : Bool) (idx : BitVec 16) (dout : Vec s.params.n)
    (synd : Vec s.params.r),
    ∃ b b' : Block s.params, exec i s = .next (s.withBlk b) ∧
      exec i (s.withBlk { s.blk with
        code := code, err := err, corr := corr, idx := idx, dout := dout, synd := synd }) = .next (s.withBlk b') ∧
      b.ht = b'.ht ∧ b.mode = b'.mode ∧ b.code = b'.code ∧ b.phase = b'.phase ∧
      (b.err = b'.err ∨ (b.err = s.blk.err ∧ b'.err = err)) ∧
      (b.corr = b'.corr ∨ (b.corr = s.blk.corr ∧ b'.corr = corr)) ∧
      (b.idx = b'.idx ∨ (b.idx = s.blk.idx ∧ b'.idx = idx)) ∧
      (b.dout = b'.dout ∨ (b.dout = s.blk.dout ∧ b'.dout = dout)) ∧
      (b.synd = b'.synd ∨ (b.synd = s.blk.synd ∧ b'.synd = synd))

/-! Result codes (spec/60_exceptions.md) -/

/-- R160, R164: every command word ends with exactly one code, the first that applies in the order BAD_OPCODE (1),
BAD_RESERVED (2), BAD_INDEX (3), NOT_CONFIGURED (4), ROW_UNWRITTEN (5), and OK (0) where none does; a legal word is run
as its command. OPC is bits 31:28, RSV bits 27:16, ARG bits 15:0 of the word's value. -/
def Obligations.CodePriority : Prop :=
  ∀ (s : State) (w : CmdWord),
    (∃ b : Block s.params, s.runWord w = .next (s.withBlk b) ∧
      b.code.bits =
        if 6 ≤ w.toNat / 2 ^ 28 then 1#3
        else if w.toNat / 2 ^ 16 % 2 ^ 12 ≠ 0 ∨ (w.toNat / 2 ^ 28 ∈ [0, 4, 5] ∧ w.toNat % 2 ^ 16 ≠ 0) ∨
          (w.toNat / 2 ^ 28 = 3 ∧ w.toNat % 2 ^ 16 / 2 ≠ 0) then 2#3
        else if w.toNat / 2 ^ 28 ∈ [1, 2] ∧ s.params.n ≤ w.toNat % 2 ^ 16 then 3#3
        else if w.toNat / 2 ^ 28 = 4 ∧ s.blk.cfgOk = false then 4#3
        else if w.toNat / 2 ^ 28 = 2 ∧ s.blk.rv (w.toNat % 2 ^ 16) = false then 5#3
        else 0#3) ∧
    ∀ i, classify w = .legal i → s.runWord w = exec i s

/-- R161: a command word that ends with a code other than OK changes CODE and nothing else. -/
def Obligations.RefusedWordsChangeOnlyCode : Prop :=
  ∀ (s : State) (w : CmdWord), ∃ b : Block s.params, s.runWord w = .next (s.withBlk b) ∧
    (b.code ≠ .ok → b = { s.blk with code := b.code })

/-- R87: a word with OPC 0x6 to 0xF ends with BAD_OPCODE whatever its other bits are, and a word of a defined OPC with
a reserved bit set ends with BAD_RESERVED; neither has another effect. -/
def Obligations.IllegalWordsRefused : Prop :=
  ∀ (s : State) (w : CmdWord),
    (6 ≤ w.toNat / 2 ^ 28 → s.runWord w = .next (s.withBlk { s.blk with code := .badOpcode })) ∧
    (w.toNat / 2 ^ 28 < 6 →
      (w.toNat / 2 ^ 16 % 2 ^ 12 ≠ 0 ∨ (w.toNat / 2 ^ 28 ∈ [0, 4, 5] ∧ w.toNat % 2 ^ 16 ≠ 0) ∨
        (w.toNat / 2 ^ 28 = 3 ∧ w.toNat % 2 ^ 16 / 2 ≠ 0)) →
      s.runWord w = .next (s.withBlk { s.blk with code := .badReserved }))

/-! Reset, handshake and commit (spec/70_reset_and_hazards.md) -/

/-- At the edge where the count reaches zero, with `rst = 0`, a step runs the command the word in flight decodes to: it
is `exec` of it, and around `exec` the phase becomes IDLE and the edge is consumed (R190). -/
def Obligations.StepRunsDecodedCommand : Prop :=
  ∀ (s : State) (cmd : CmdWord) (din : Vec s.params.n) (i : Instr), s.edgeNow.rst = false →
    s.blk.phase = .busy cmd din 1 → classify cmd = .legal i →
    ∃ b : Block s.params, exec i s = .next (s.withBlk b) ∧
      step s = .next { s with blk := { b with phase := .idle }, inputs := s.inputs.tail, cycle := s.cycle + 1 }

/-- R87: at the edge where the count reaches zero, a word that is no legal command ends with its code and has no other
effect; the phase becomes IDLE. -/
def Obligations.StepRefusesIllegalWord : Prop :=
  ∀ (s : State) (cmd : CmdWord) (din : Vec s.params.n), s.edgeNow.rst = false → s.blk.phase = .busy cmd din 1 →
    (classify cmd = .badOpcode → step s = .next { s with
      blk := { s.blk with code := .badOpcode, phase := .idle }, inputs := s.inputs.tail, cycle := s.cycle + 1 }) ∧
    (classify cmd = .badReserved → step s = .next { s with
      blk := { s.blk with code := .badReserved, phase := .idle }, inputs := s.inputs.tail, cycle := s.cycle + 1 })

/-- R180, R181: an edge with `rst = 1` puts all architectural state at its reset value and the phase at RESET, whatever
the phase was: a command in flight is discarded and an offer is not accepted. While in RESET, `cmd_ready` and
`rsp_valid` are 0, and no edge accepts a command. -/
def Obligations.ResetWins : Prop :=
  ∀ s : State,
    (s.edgeNow.rst = true → step s = .next { s with
      blk := { ht := [], mode := .correct, code := .ok, err := false, corr := false, idx := 0, dout := 0, synd := 0,
               phase := .reset },
      inputs := s.inputs.tail, cycle := s.cycle + 1 }) ∧
    (s.blk.phase = .reset → s.ports.cmdReady = 0 ∧ s.ports.rspValid = 0 ∧
      ∃ t, step s = .next t ∧ (t.blk.phase = .reset ∨ t.blk.phase = .idle))

/-- R182: in a state that meets the invariant and is in RESET, the first edge with `rst = 0` leaves the phase IDLE,
`cmd_ready` and `rsp_valid` 1, and every result port 0; a further edge with `rst = 1` changes nothing of the block. -/
def Obligations.LeavingReset : Prop :=
  ∀ s : State, s.Inv → s.blk.phase = .reset →
    (s.edgeNow.rst = false → ∃ t, step s = .next t ∧ t.blk.phase = .idle ∧
      t.ports = { cmdReady := 1, rspValid := 1, rspCode := 0, decErr := 0, decCorr := 0, decIdx := 0, dout := 0,
                  synd := 0, modeQ := 0, cfgOk := 0 }) ∧
    (s.edgeNow.rst = true → step s = .next { s with inputs := s.inputs.tail, cycle := s.cycle + 1 })

/-- R186: at an edge with `rst = 0` in IDLE, where `cmd_ready` is 1, an offer is accepted, with `cmd` and `din` as they
are at that edge and `LAT` edges to go, and without an offer nothing of the block changes. -/
def Obligations.IdleAcceptsOffer : Prop :=
  ∀ s : State, s.edgeNow.rst = false → s.blk.phase = .idle →
    s.ports.cmdReady = 1 ∧
    (s.edgeNow.cmdValid = true → step s = .next { s with
      blk := { s.blk with phase := .busy s.edgeNow.cmd s.edgeNow.din (s.edgeNow.extraLat + 1) },
      inputs := s.inputs.tail, cycle := s.cycle + 1 }) ∧
    (s.edgeNow.cmdValid = false → step s = .next { s with inputs := s.inputs.tail, cycle := s.cycle + 1 })

/-- R187, R188: at an edge that accepts no command, because the phase is not IDLE, or `rst` is 1, or nothing is offered,
what the host drives on `cmd` and `din` has no effect; where the phase is not IDLE `cmd_valid` has none either. -/
def Obligations.OffersIgnoredUnlessAccepted : Prop :=
  ∀ (s : State) (e e' : Edge s.params) (rest : List (Edge s.params)), e.rst = e'.rst →
    (s.blk.phase ≠ .idle ∨ e.rst = true ∨ (e.cmdValid = false ∧ e'.cmdValid = false)) →
    step { s with inputs := e :: rest } = step { s with inputs := e' :: rest }

/-- R190: an edge with `rst = 0` in BUSY with two or more edges to go decrements the count, and nothing else of the
block changes. -/
def Obligations.BusyCountsDown : Prop :=
  ∀ (s : State) (cmd : CmdWord) (din : Vec s.params.n) (m : Nat), s.edgeNow.rst = false →
    s.blk.phase = .busy cmd din (m + 2) →
    step s = .next { s with
      blk := { s.blk with phase := .busy cmd din (m + 1) }, inputs := s.inputs.tail, cycle := s.cycle + 1 }

/-- R190: a command accepted at an edge commits `LAT` edges later, for every `LAT`, if `rst` stays 0. From the accepting
edge up to the commit the phase is BUSY, its count goes from `LAT` down by one an edge, and `cmd_ready` and `rsp_valid`
are 0; at the commit the block is what the one atomic run of the accepted word makes of it, the phase is IDLE and both
are 1. -/
def Obligations.AcceptedCommandCommits : Prop :=
  ∀ (s : State) (e : Edge s.params) (rest : List (Edge s.params)), s.blk.phase = .idle → s.inputs = e :: rest →
    e.rst = false → e.cmdValid = true → s.noResetFor (e.extraLat + 2) →
    (∀ k < e.extraLat + 1, ∃ b : Block s.params,
      b = s.blk.setPhase (.busy e.cmd e.din (e.extraLat + 1 - k)) ∧
      ∃ u : State, Sys2Proof.core.run (k + 1) s = .next u ∧
        u = { s with blk := b, inputs := s.inputs.drop (k + 1), cycle := s.cycle + (k + 1) } ∧
        u.ports.cmdReady = 0 ∧ u.ports.rspValid = 0) ∧
    ∃ (b : Block s.params) (t : State),
      (s.withBlk (s.blk.setPhase (.busy e.cmd e.din 1))).runWord e.cmd = .next (s.withBlk b) ∧
      Sys2Proof.core.run (e.extraLat + 2) s = .next t ∧
      t = { s with blk := { b with phase := .idle }, inputs := s.inputs.drop (e.extraLat + 2),
                   cycle := s.cycle + (e.extraLat + 2) } ∧
      t.ports.cmdReady = 1 ∧ t.ports.rspValid = 1

/-- R15: no command can hang or fault the block: every step, from every state, gives a next state. -/
def Obligations.EveryStepCompletes : Prop :=
  ∀ s : State, Completes (step s)

/-- R7: the elaboration parameters are fixed: no step changes them. -/
def Obligations.ParametersFixed : Prop :=
  ∀ s t : State, step s = .next t → t.params = s.params

/-- R38: with `rsp_valid = 1`, which is in IDLE and only there, each result port shows the register or function it
names; `cfg_ok` is 1 exactly when every row is written (R26). -/
def Obligations.PortsShowRegisters : Prop :=
  ∀ s : State, (s.resultsReadable ↔ s.blk.phase = .idle) ∧ s.ports.cmdReady = s.ports.rspValid ∧
    (s.resultsReadable →
      s.ports.rspCode = s.blk.code.bits ∧ s.ports.decErr = BitVec.ofBool s.blk.err ∧
      s.ports.decCorr = BitVec.ofBool s.blk.corr ∧ s.ports.decIdx = s.blk.idx ∧ s.ports.dout = s.blk.dout ∧
      s.ports.synd = s.blk.synd ∧ (s.ports.modeQ = 1 ↔ s.blk.mode = .detect) ∧
      (s.ports.cfgOk = 1 ↔ ∀ i < s.params.n, (s.blk.ht.read i).isSome = true))

/-! Invariants -/

/-- Every step keeps the invariant of Sys2Proof/Safety.lean. -/
def Obligations.StepKeepsInvariant : Prop :=
  ∀ s t : State, s.Inv → step s = .next t → t.Inv

/-- The invariant holds right after reset, for every instance. -/
def Obligations.ResetMeetsInvariant : Prop :=
  (∀ p : Params, (State.resetOf p).Inv) ∧ State.reset.Inv

/-! The reference construction (10_state.md section 7) -/

/-- R40: a count is within the bound exactly when it is at most `tc`, so `tc` is the largest; `dmin` is `2·tc + 1`. -/
def Obligations.CapabilityIsLargest : Prop :=
  ∀ p : Params, (∀ t, binomialSum p.n t ≤ 2 ^ p.r ↔ t ≤ referenceTc p) ∧ referenceDmin p = 2 * referenceTc p + 1

/-- R45: with the rows `[P; I]` stored, every codeword of the code of `P` has syndrome zero. -/
def Obligations.CodewordsHaveZeroSyndrome : Prop :=
  ∀ (p : Params) (b : Block p) (P : List (Vec p.r)) (U : Vec p.k), P.length = p.k →
    b.ht = rowsFrom 0 (systematicRows p P) → b.syndrome (encodeWord P U) = 0

/-- R132: with the rows `[P; I]` stored, a DECODE of the codeword of a source word gives the codeword back in both modes,
and its bits below K are the source word. -/
def Obligations.SourceWordRecovered : Prop :=
  ∀ (s : State) (P : List (Vec s.params.r)) (U : Vec s.params.k), P.length = s.params.k →
    s.blk.ht = rowsFrom 0 (systematicRows s.params P) → s.blk.operand = encodeWord P U →
    ∃ b : Block s.params, exec .decode s = .next (s.withBlk b) ∧ b.dout = encodeWord P U ∧ sourceWord b.dout = U ∧
      b.err = false

/-- R48: where the reference construction succeeds with `dmin` at least 3, it gives N rows, every row is non-zero and no
two are equal. With `dmin` 1 the first row is zero, so this fails; the rows of the (5,3) instance are the rule's
example, and rest on the reading of position index `c` as column `c` that 10_state.md R42 decides (log entry 11). -/
def Obligations.ReferenceRowsDistinct : Prop :=
  ∀ (p : Params) (rows : List (Vec p.r)), referenceRows p = some rows →
    rows.length = p.n ∧
    (3 ≤ referenceDmin p → rowsDistinct p.n fun i => rows.getD i 0) ∧
    (referenceDmin p = 1 → rows.getD 0 0 = 0 ∧ ¬ rowsDistinct p.n fun i => rows.getD i 0) ∧
    (p.n = 5 → p.k = 3 → rows.map BitVec.toNat = [0, 1, 2, 1, 2])
end

