-- ==== Sys2Proof/Laws/Decode.lean ====
section
/-!
SUPPORT. The fields of a command word as quotients and remainders of its value, and the classification through them.
-/
namespace Sys2Proof

theorem opcOf_toNat (w : CmdWord) : (opcOf w).toNat = w.toNat / 2 ^ 28 := by
  simp only [opcOf, BitVec.extractLsb'_toNat, Nat.shiftRight_eq_div_pow]
  omega

theorem rsvOf_toNat (w : CmdWord) : (rsvOf w).toNat = w.toNat / 2 ^ 16 % 2 ^ 12 := by
  simp [rsvOf, BitVec.extractLsb'_toNat, Nat.shiftRight_eq_div_pow]

theorem argOf_toNat (w : CmdWord) : (argOf w).toNat = w.toNat % 2 ^ 16 := by
  simp [argOf, BitVec.extractLsb'_toNat]

theorem cmdWord_toNat (opc : BitVec 4) (arg : BitVec 16) :
    (cmdWord opc arg).toNat = opc.toNat * 2 ^ 28 + arg.toNat := by
  have := arg.isLt
  simp only [cmdWord, BitVec.toNat_append, BitVec.toNat_ofNat]
  rw [← Nat.shiftLeft_add_eq_or_of_lt (by omega), ← Nat.shiftLeft_add_eq_or_of_lt (by omega)]
  simp only [Nat.shiftLeft_eq]
  omega

/-- A bit vector differs from zero exactly when its value does. -/
theorem ne_zero_iff_toNat {n : Nat} (x : BitVec n) : x ≠ 0 ↔ x.toNat ≠ 0 := by
  rw [not_iff_not]
  exact ⟨fun h => by simp [h], fun h => BitVec.eq_of_toNat_eq (by simpa using h)⟩

/-- `classify` through the value of the word: OPC is `w / 2^28`, RSV `w / 2^16 % 2^12`, ARG `w % 2^16`. -/
theorem classify_eq (w : CmdWord) : classify w =
    if 6 ≤ w.toNat / 2 ^ 28 then .badOpcode
    else if w.toNat / 2 ^ 16 % 2 ^ 12 ≠ 0 then .badReserved
    else match w.toNat / 2 ^ 28 with
      | 0 => if w.toNat % 2 ^ 16 ≠ 0 then .badReserved else .legal .nop
      | 1 => .legal (.wrrow (w.toNat % 2 ^ 16))
      | 2 => .legal (.rdrow (w.toNat % 2 ^ 16))
      | 3 => if w.toNat % 2 ^ 16 / 2 ≠ 0 then .badReserved
        else .legal (.setmode (modeOfBit (decide (w.toNat % 2 ^ 16 % 2 = 1))))
      | 4 => if w.toNat % 2 ^ 16 ≠ 0 then .badReserved else .legal .decode
      | _ => if w.toNat % 2 ^ 16 ≠ 0 then .badReserved else .legal .clear := by
  have hfield : (BitVec.extractLsb' 1 15 (argOf w)).toNat = w.toNat % 2 ^ 16 / 2 := by
    rw [BitVec.extractLsb'_toNat, argOf_toNat, Nat.shiftRight_eq_div_pow]
    omega
  have hbit : (argOf w).getLsbD 0 = decide (w.toNat % 2 ^ 16 % 2 = 1) := by
    rw [BitVec.getLsbD, argOf_toNat, Nat.testBit_zero]
  unfold classify
  rw [opcOf_toNat]
  simp only [ne_zero_iff_toNat, rsvOf_toNat, argOf_toNat, hfield, hbit] <;> rfl

end Sys2Proof
end

