-- ==== Sys2Proof/Laws/State.lean ====
section
/-!
SUPPORT. One lemma per field per update of the block and of the machine, true by rfl.
-/
namespace Sys2Proof.Machine

section
variable {p : Params} (b : Block p)

@[simp] theorem Block.setCode_ht (c : ResultCode) : (b.setCode c).ht = b.ht := rfl
@[simp] theorem Block.setCode_mode (c : ResultCode) : (b.setCode c).mode = b.mode := rfl
@[simp] theorem Block.setCode_code (c : ResultCode) : (b.setCode c).code = c := rfl
@[simp] theorem Block.setCode_err (c : ResultCode) : (b.setCode c).err = b.err := rfl
@[simp] theorem Block.setCode_corr (c : ResultCode) : (b.setCode c).corr = b.corr := rfl
@[simp] theorem Block.setCode_idx (c : ResultCode) : (b.setCode c).idx = b.idx := rfl
@[simp] theorem Block.setCode_dout (c : ResultCode) : (b.setCode c).dout = b.dout := rfl
@[simp] theorem Block.setCode_synd (c : ResultCode) : (b.setCode c).synd = b.synd := rfl
@[simp] theorem Block.setCode_phase (c : ResultCode) : (b.setCode c).phase = b.phase := rfl

@[simp] theorem Block.raise_ht (c : ResultCode) : (b.raise c).ht = b.ht := rfl
@[simp] theorem Block.raise_mode (c : ResultCode) : (b.raise c).mode = b.mode := rfl
@[simp] theorem Block.raise_code (c : ResultCode) : (b.raise c).code = c := rfl
@[simp] theorem Block.raise_err (c : ResultCode) : (b.raise c).err = b.err := rfl
@[simp] theorem Block.raise_corr (c : ResultCode) : (b.raise c).corr = b.corr := rfl
@[simp] theorem Block.raise_idx (c : ResultCode) : (b.raise c).idx = b.idx := rfl
@[simp] theorem Block.raise_dout (c : ResultCode) : (b.raise c).dout = b.dout := rfl
@[simp] theorem Block.raise_synd (c : ResultCode) : (b.raise c).synd = b.synd := rfl
@[simp] theorem Block.raise_phase (c : ResultCode) : (b.raise c).phase = b.phase := rfl

@[simp] theorem Block.writeRow_ht (i : Nat) (v : Vec p.r) : (b.writeRow i v).ht = b.ht.write i v := rfl
@[simp] theorem Block.writeRow_mode (i : Nat) (v : Vec p.r) : (b.writeRow i v).mode = b.mode := rfl
@[simp] theorem Block.writeRow_code (i : Nat) (v : Vec p.r) : (b.writeRow i v).code = b.code := rfl
@[simp] theorem Block.writeRow_err (i : Nat) (v : Vec p.r) : (b.writeRow i v).err = b.err := rfl
@[simp] theorem Block.writeRow_corr (i : Nat) (v : Vec p.r) : (b.writeRow i v).corr = b.corr := rfl
@[simp] theorem Block.writeRow_idx (i : Nat) (v : Vec p.r) : (b.writeRow i v).idx = b.idx := rfl
@[simp] theorem Block.writeRow_dout (i : Nat) (v : Vec p.r) : (b.writeRow i v).dout = b.dout := rfl
@[simp] theorem Block.writeRow_synd (i : Nat) (v : Vec p.r) : (b.writeRow i v).synd = b.synd := rfl
@[simp] theorem Block.writeRow_phase (i : Nat) (v : Vec p.r) : (b.writeRow i v).phase = b.phase := rfl

@[simp] theorem Block.setMode_ht (m : Mode) : (b.setMode m).ht = b.ht := rfl
@[simp] theorem Block.setMode_mode (m : Mode) : (b.setMode m).mode = m := rfl
@[simp] theorem Block.setMode_code (m : Mode) : (b.setMode m).code = b.code := rfl
@[simp] theorem Block.setMode_err (m : Mode) : (b.setMode m).err = b.err := rfl
@[simp] theorem Block.setMode_corr (m : Mode) : (b.setMode m).corr = b.corr := rfl
@[simp] theorem Block.setMode_idx (m : Mode) : (b.setMode m).idx = b.idx := rfl
@[simp] theorem Block.setMode_dout (m : Mode) : (b.setMode m).dout = b.dout := rfl
@[simp] theorem Block.setMode_synd (m : Mode) : (b.setMode m).synd = b.synd := rfl
@[simp] theorem Block.setMode_phase (m : Mode) : (b.setMode m).phase = b.phase := rfl

@[simp] theorem Block.setDout_ht (v : Vec p.n) : (b.setDout v).ht = b.ht := rfl
@[simp] theorem Block.setDout_mode (v : Vec p.n) : (b.setDout v).mode = b.mode := rfl
@[simp] theorem Block.setDout_code (v : Vec p.n) : (b.setDout v).code = b.code := rfl
@[simp] theorem Block.setDout_err (v : Vec p.n) : (b.setDout v).err = b.err := rfl
@[simp] theorem Block.setDout_corr (v : Vec p.n) : (b.setDout v).corr = b.corr := rfl
@[simp] theorem Block.setDout_idx (v : Vec p.n) : (b.setDout v).idx = b.idx := rfl
@[simp] theorem Block.setDout_dout (v : Vec p.n) : (b.setDout v).dout = v := rfl
@[simp] theorem Block.setDout_synd (v : Vec p.n) : (b.setDout v).synd = b.synd := rfl
@[simp] theorem Block.setDout_phase (v : Vec p.n) : (b.setDout v).phase = b.phase := rfl

@[simp] theorem Block.setResults_ht (S : Vec p.r) (e c : Bool) (x : BitVec 16) (v : Vec p.n) : (b.setResults S e c x v).ht = b.ht := rfl
@[simp] theorem Block.setResults_mode (S : Vec p.r) (e c : Bool) (x : BitVec 16) (v : Vec p.n) : (b.setResults S e c x v).mode = b.mode := rfl
@[simp] theorem Block.setResults_code (S : Vec p.r) (e c : Bool) (x : BitVec 16) (v : Vec p.n) : (b.setResults S e c x v).code = b.code := rfl
@[simp] theorem Block.setResults_err (S : Vec p.r) (e c : Bool) (x : BitVec 16) (v : Vec p.n) : (b.setResults S e c x v).err = e := rfl
@[simp] theorem Block.setResults_corr (S : Vec p.r) (e c : Bool) (x : BitVec 16) (v : Vec p.n) : (b.setResults S e c x v).corr = c := rfl
@[simp] theorem Block.setResults_idx (S : Vec p.r) (e c : Bool) (x : BitVec 16) (v : Vec p.n) : (b.setResults S e c x v).idx = x := rfl
@[simp] theorem Block.setResults_dout (S : Vec p.r) (e c : Bool) (x : BitVec 16) (v : Vec p.n) : (b.setResults S e c x v).dout = v := rfl
@[simp] theorem Block.setResults_synd (S : Vec p.r) (e c : Bool) (x : BitVec 16) (v : Vec p.n) : (b.setResults S e c x v).synd = S := rfl
@[simp] theorem Block.setResults_phase (S : Vec p.r) (e c : Bool) (x : BitVec 16) (v : Vec p.n) : (b.setResults S e c x v).phase = b.phase := rfl

@[simp] theorem Block.clear_ht : b.clear.ht = [] := rfl
@[simp] theorem Block.clear_mode : b.clear.mode = .correct := rfl
@[simp] theorem Block.clear_code : b.clear.code = b.code := rfl
@[simp] theorem Block.clear_err : b.clear.err = false := rfl
@[simp] theorem Block.clear_corr : b.clear.corr = false := rfl
@[simp] theorem Block.clear_idx : b.clear.idx = 0 := rfl
@[simp] theorem Block.clear_dout : b.clear.dout = 0 := rfl
@[simp] theorem Block.clear_synd : b.clear.synd = 0 := rfl
@[simp] theorem Block.clear_phase : b.clear.phase = b.phase := rfl

@[simp] theorem Block.setPhase_ht (ph : Phase p) : (b.setPhase ph).ht = b.ht := rfl
@[simp] theorem Block.setPhase_mode (ph : Phase p) : (b.setPhase ph).mode = b.mode := rfl
@[simp] theorem Block.setPhase_code (ph : Phase p) : (b.setPhase ph).code = b.code := rfl
@[simp] theorem Block.setPhase_err (ph : Phase p) : (b.setPhase ph).err = b.err := rfl
@[simp] theorem Block.setPhase_corr (ph : Phase p) : (b.setPhase ph).corr = b.corr := rfl
@[simp] theorem Block.setPhase_idx (ph : Phase p) : (b.setPhase ph).idx = b.idx := rfl
@[simp] theorem Block.setPhase_dout (ph : Phase p) : (b.setPhase ph).dout = b.dout := rfl
@[simp] theorem Block.setPhase_synd (ph : Phase p) : (b.setPhase ph).synd = b.synd := rfl
@[simp] theorem Block.setPhase_phase (ph : Phase p) : (b.setPhase ph).phase = ph := rfl

@[simp] theorem Block.reset_ht (p : Params) : (Block.reset p).ht = [] := rfl
@[simp] theorem Block.reset_mode (p : Params) : (Block.reset p).mode = .correct := rfl
@[simp] theorem Block.reset_code (p : Params) : (Block.reset p).code = .ok := rfl
@[simp] theorem Block.reset_err (p : Params) : (Block.reset p).err = false := rfl
@[simp] theorem Block.reset_corr (p : Params) : (Block.reset p).corr = false := rfl
@[simp] theorem Block.reset_idx (p : Params) : (Block.reset p).idx = 0 := rfl
@[simp] theorem Block.reset_dout (p : Params) : (Block.reset p).dout = 0 := rfl
@[simp] theorem Block.reset_synd (p : Params) : (Block.reset p).synd = 0 := rfl
@[simp] theorem Block.reset_phase (p : Params) : (Block.reset p).phase = .reset := rfl

end

section
variable (s : State) (b : Block s.params)

@[simp] theorem State.withBlk_params : (s.withBlk b).params = s.params := rfl
@[simp] theorem State.withBlk_blk : (s.withBlk b).blk = b := rfl
@[simp] theorem State.withBlk_inputs : (s.withBlk b).inputs = s.inputs := rfl
@[simp] theorem State.withBlk_cycle : (s.withBlk b).cycle = s.cycle := rfl

@[simp] theorem State.afterEdge_params : (s.afterEdge b).params = s.params := rfl
@[simp] theorem State.afterEdge_blk : (s.afterEdge b).blk = b := rfl
@[simp] theorem State.afterEdge_inputs : (s.afterEdge b).inputs = s.inputs.tail := rfl
@[simp] theorem State.afterEdge_cycle : (s.afterEdge b).cycle = s.cycle + 1 := rfl

@[simp] theorem State.committed_params : s.committed.params = s.params := rfl
@[simp] theorem State.committed_blk : s.committed.blk = s.blk.setPhase .idle := rfl
@[simp] theorem State.committed_inputs : s.committed.inputs = s.inputs.tail := rfl
@[simp] theorem State.committed_cycle : s.committed.cycle = s.cycle + 1 := rfl

/-- A second replacement of the block overrides the first. -/
@[simp] theorem State.withBlk_withBlk (c : Block s.params) : (s.withBlk b).withBlk c = s.withBlk c := rfl

/-- A commit after a command that left the block as `b` is the edge's own update with the phase IDLE. -/
theorem State.committed_withBlk : (s.withBlk b).committed = s.afterEdge (b.setPhase .idle) := rfl

end

end Sys2Proof.Machine
end

