-- ==== Sys2Proof/Laws/Memory.lean ====
section
/-!
SUPPORT. The laws of the row store: every operation keeps its canonical form, and the keys it lists.
-/
namespace Sys2Proof.Machine

variable {w n : Nat} {p : Params}

@[simp] theorem Memory.read_nil (i : Nat) : Memory.read ([] : Memory w) i = none := rfl

theorem Memory.read_cons (a i : Nat) (v : Vec w) (rest : Memory w) :
    Memory.read ((a, v) :: rest) i = if a = i then some v else Memory.read rest i := rfl

/-- A row is written exactly when the store lists its index. -/
theorem Memory.isSome_read (rows : Memory w) (i : Nat) : (rows.read i).isSome = true ↔ i ∈ rows.map Prod.fst := by
  induction rows with
  | nil => simp
  | cons c rest ih =>
    obtain ⟨a, v⟩ := c
    by_cases h : a = i
    · simp [Memory.read_cons, h]
    · simp [Memory.read_cons, h, ih, Ne.symm h]

/-- A write lists the written index and the indices listed before. -/
theorem Memory.mem_keys_write (rows : Memory w) (i : Nat) (v : Vec w) (a : Nat) :
    a ∈ (rows.write i v).map Prod.fst ↔ a = i ∨ a ∈ rows.map Prod.fst := by
  induction rows with
  | nil => simp [Memory.write]
  | cons c rest ih =>
    obtain ⟨k, u⟩ := c
    unfold Memory.write
    split
    · simp
    · split
      · next h => subst h; simp
      · rw [List.map_cons, List.mem_cons, ih, List.map_cons, List.mem_cons]; tauto

/-- A write keeps the rising order of the indices. -/
theorem Memory.pairwise_write (rows : Memory w) (i : Nat) (v : Vec w)
    (h : (rows.map Prod.fst).Pairwise (· < ·)) : ((rows.write i v).map Prod.fst).Pairwise (· < ·) := by
  induction rows with
  | nil => simp [Memory.write]
  | cons c rest ih =>
    obtain ⟨k, u⟩ := c
    simp only [List.map_cons, List.pairwise_cons] at h
    unfold Memory.write
    split
    · next hik =>
      simp only [List.map_cons, List.pairwise_cons, List.mem_cons]
      refine ⟨?_, h⟩
      rintro a (rfl | ha)
      · exact hik
      · exact hik.trans (h.1 a ha)
    · split
      · next hik => subst hik; simpa using h
      · next hlt hne =>
        simp only [List.map_cons, List.pairwise_cons]
        refine ⟨fun a ha => ?_, ih h.2⟩
        rcases (Memory.mem_keys_write rest i v a).1 ha with rfl | ha
        · omega
        · exact h.1 a ha

/-- A write of a row of the address map keeps the canonical form. -/
theorem Memory.wf_write {rows : Memory w} (h : rows.wf n) {i : Nat} (hi : i < n) (v : Vec w) : (rows.write i v).wf n :=
  ⟨Memory.pairwise_write rows i v h.1, fun a ha => by
    rcases (Memory.mem_keys_write rows i v a).1 ha with rfl | ha
    · exact hi
    · exact h.2 a ha⟩

/-- The store right after reset and CLEAR is canonical. -/
theorem Memory.wf_nil : Memory.wf n ([] : Memory w) :=
  ⟨List.Pairwise.nil, by simp⟩

/-- The rows listed from a starting index on: row `i` of the list is stored at the index `start + i`. -/
theorem Memory.read_rowsFrom (rows : List (Vec w)) (start i : Nat) :
    (rowsFrom start rows).read i = if start ≤ i then rows[i - start]? else none := by
  induction rows generalizing start with
  | nil => simp [rowsFrom]
  | cons v rest ih =>
    rw [rowsFrom, Memory.read_cons, ih]
    by_cases h : start = i
    · subst h; simp
    · by_cases hlt : start ≤ i
      · have h1 : start + 1 ≤ i := by omega
        have h2 : i - start = i - (start + 1) + 1 := by omega
        simp [h, hlt, h1, h2]
      · have h1 : ¬ start + 1 ≤ i := by omega
        simp [h, hlt, h1]

/-- `RV` and the row of an index that the store lists. -/
theorem Block.rv_of_read {b : Block p} {i : Nat} {v : Vec p.r} (h : b.ht.read i = some v) : b.rv i = true := by
  simp [Block.rv, h]

theorem Block.row_of_read {b : Block p} {i : Nat} {v : Vec p.r} (h : b.ht.read i = some v) : b.row i = v := by
  simp [Block.row, h]

/-- `CFG_OK` is 1 exactly when every row is written (10_state.md R26). -/
theorem Block.cfgOk_iff (b : Block p) : b.cfgOk = true ↔ ∀ i < p.n, b.rv i = true := by
  simp [Block.cfgOk]

/-- `CFG_OK` and the rows depend on the row store alone. -/
theorem Block.cfgOk_congr {b c : Block p} (h : b.ht = c.ht) : b.cfgOk = c.cfgOk := by
  have : b.rv = c.rv := funext fun i => by simp [Block.rv, h]
  simp [Block.cfgOk, this]

theorem Block.row_congr {b c : Block p} (h : b.ht = c.ht) : b.row = c.row :=
  funext fun i => by simp [Block.row, h]

end Sys2Proof.Machine
end

