-- ==== Sys2Proof/Laws/Ops.lean ====
section
/-!
SUPPORT. What the shared operations can do: the checks of 60_exceptions.md R164, the run of a legal command, the
operand forms and the operations of DECODE.
-/
namespace Sys2Proof.Machine

variable {p : Params}

/-- A command that fails a check is refused: CODE alone changes. -/
theorem State.runCommand_of_check {s : State} {i : Instr} {c : ResultCode} {op : Block s.params → Block s.params}
    (h : s.blk.check i = some c) : s.runCommand i op = .next (s.withBlk (s.blk.raise c)) := by
  simp [State.runCommand, h]

/-- A command that passes the checks does its writes and sets CODE to OK. -/
theorem State.runCommand_of_pass {s : State} {i : Instr} {op : Block s.params → Block s.params}
    (h : s.blk.check i = none) : s.runCommand i op = .next (s.withBlk ((op s.blk).setCode .ok)) := by
  simp [State.runCommand, h]

/-- All that the run of a legal command can do: a refusal with the failed check's code, or the command's writes. -/
theorem State.runCommand_cases (s : State) (i : Instr) (op : Block s.params → Block s.params) :
    (∃ c, s.blk.check i = some c ∧ s.runCommand i op = .next (s.withBlk (s.blk.raise c))) ∨
      (s.blk.check i = none ∧ s.runCommand i op = .next (s.withBlk ((op s.blk).setCode .ok))) := by
  cases h : s.blk.check i with
  | some c => exact .inl ⟨c, rfl, State.runCommand_of_check h⟩
  | none => exact .inr ⟨rfl, State.runCommand_of_pass h⟩

/-- No check fails with OK. -/
theorem Block.check_ne_ok (b : Block p) (i : Instr) : b.check i ≠ some .ok := by
  cases i <;> simp only [Block.check] <;> repeat (first | split | simp)

theorem Block.check_wrrow {b : Block p} {i : Nat} (h : i < p.n) : b.check (.wrrow i) = none := by
  simp [Block.check, h]

theorem Block.check_wrrow_bad {b : Block p} {i : Nat} (h : p.n ≤ i) : b.check (.wrrow i) = some .badIndex := by
  simp [Block.check, h]

theorem Block.check_rdrow {b : Block p} {i : Nat} (h : i < p.n) (hv : b.rv i = true) : b.check (.rdrow i) = none := by
  simp [Block.check, h, hv]

theorem Block.check_rdrow_bad {b : Block p} {i : Nat} (h : p.n ≤ i) : b.check (.rdrow i) = some .badIndex := by
  simp [Block.check, h]

theorem Block.check_rdrow_unwritten {b : Block p} {i : Nat} (h : i < p.n) (hv : b.rv i = false) :
    b.check (.rdrow i) = some .rowUnwritten := by
  simp [Block.check, h, hv]

theorem Block.check_decode {b : Block p} (h : b.cfgOk = true) : b.check .decode = none := by
  simp [Block.check, h]

theorem Block.check_decode_unconfigured {b : Block p} (h : b.cfgOk = false) :
    b.check .decode = some .notConfigured := by
  simp [Block.check, h]

/-- The operand of a command in flight is the word sampled with it (70_reset_and_hazards.md R187). -/
theorem Block.operand_of_busy {b : Block p} {c : CmdWord} {d : Vec p.n} {m : Nat} (h : b.phase = .busy c d m) :
    b.operand = d := by
  simp [Block.operand, h]

/-- The operand depends on the phase alone. -/
theorem Block.operand_congr {b c : Block p} (h : b.phase = c.phase) : b.operand = c.operand := by
  simp [Block.operand, h]

/-- The syndrome depends on the row store and the word alone (41_decode.md R133). -/
theorem Block.syndrome_congr {b c : Block p} (h : b.ht = c.ht) (r : Vec p.n) : b.syndrome r = c.syndrome r := by
  simp [Block.syndrome, Block.row_congr h]

/-- The flipped position depends on the row store, the mode and the syndrome alone. -/
theorem Block.flipPosition_congr {b c : Block p} (h : b.ht = c.ht) (hm : b.mode = c.mode) (S : Vec p.r) :
    b.flipPosition S = c.flipPosition S := by
  simp [Block.flipPosition, Block.firstMatch, Block.row_congr h, hm]

/-- Stored rows: every row is valid. -/
theorem Block.cfgOk_of_holdsRows {b : Block p} {rows : Nat → Vec p.r} (h : b.holdsRows rows) : b.cfgOk = true :=
  b.cfgOk_iff.2 fun i hi => Block.rv_of_read (h i hi)

/-- Stored rows: a row of the address map reads as stored. -/
theorem Block.row_of_holdsRows {b : Block p} {rows : Nat → Vec p.r} (h : b.holdsRows rows) {i : Nat} (hi : i < p.n) :
    b.row i = rows i :=
  Block.row_of_read (h i hi)

/-- The search finds the lowest matching index (41_decode.md R126). -/
theorem Block.firstMatch_eq_some (b : Block p) (S : Vec p.r) (q : Nat) :
    b.firstMatch S = some q ↔ q < p.n ∧ b.row q = S ∧ ∀ j < q, b.row j ≠ S := by
  simp only [Block.firstMatch, List.find?_range_eq_some, beq_iff_eq, List.mem_range]
  constructor
  · rintro ⟨h1, h2, h3⟩
    exact ⟨h2, h1, fun j hj => by simpa using h3 j hj⟩
  · rintro ⟨h1, h2, h3⟩
    exact ⟨h2, h1, fun j hj => by simpa using h3 j hj⟩

/-- The search finds nothing exactly when no row matches (41_decode.md R127). -/
theorem Block.firstMatch_eq_none (b : Block p) (S : Vec p.r) :
    b.firstMatch S = none ↔ ∀ j < p.n, b.row j ≠ S := by
  simp [Block.firstMatch]

/-- The flipped position is a bit position. -/
theorem Block.flipPosition_lt {b : Block p} {S : Vec p.r} {q : Nat} (h : b.flipPosition S = some q) : q < p.n := by
  unfold Block.flipPosition at h
  split at h
  · split at h
    · cases h
    · exact ((Block.firstMatch_eq_some b S q).1 h).1
  · cases h

/-- A bit is flipped only for a non-zero syndrome (41_decode.md R125). -/
theorem Block.flipPosition_zero (b : Block p) : b.flipPosition 0 = none := by
  unfold Block.flipPosition
  split <;> simp

end Sys2Proof.Machine
end

