-- ==== Sys2Proof/Laws/Step.lean ====
section
/-!
SUPPORT. What a command, a command word and a step can do.
-/
namespace Sys2Proof.Machine

/-- The writes of a command that passes its checks, but for CODE. -/
def Block.writes {p : Params} (b : Block p) (i : Instr) : Block p :=
  match i with
  | .nop => b
  | .wrrow a => b.writeRow a (rowOperand b.operand)
  | .rdrow a => b.setDout (zextRow (b.row a))
  | .setmode m => b.setMode m
  | .decode => b.decodeWord b.operand
  | .clear => b.clear

/-- Every meaning is the run of its command's writes. -/
theorem exec_eq (i : Instr) (s : State) : exec i s = s.runCommand i fun b => b.writes i := by
  cases i <;> rfl

/-- All that a command can do. -/
theorem exec_cases (i : Instr) (s : State) :
    (∃ c, s.blk.check i = some c ∧ exec i s = .next (s.withBlk (s.blk.raise c))) ∨
      (s.blk.check i = none ∧ exec i s = .next (s.withBlk ((s.blk.writes i).setCode .ok))) := by
  rw [exec_eq]
  exact s.runCommand_cases i _

/-- A command that fails a check changes CODE alone. -/
theorem exec_of_check {i : Instr} {s : State} {c : ResultCode} (h : s.blk.check i = some c) :
    exec i s = .next (s.withBlk (s.blk.raise c)) := by
  rw [exec_eq]
  exact State.runCommand_of_check h

/-- A command that passes its checks does its writes and sets CODE to OK. -/
theorem exec_of_pass {i : Instr} {s : State} (h : s.blk.check i = none) :
    exec i s = .next (s.withBlk ((s.blk.writes i).setCode .ok)) := by
  rw [exec_eq]
  exact State.runCommand_of_pass h

/-- A command changes the block alone. -/
theorem exec_next (i : Instr) (s : State) : ∃ b : Block s.params, exec i s = .next (s.withBlk b) := by
  obtain ⟨c, -, h⟩ | ⟨-, h⟩ := exec_cases i s
  · exact ⟨_, h⟩
  · exact ⟨_, h⟩

/-- A command keeps the phase. -/
theorem Block.writes_phase {p : Params} (b : Block p) (i : Instr) : (b.writes i).phase = b.phase := by
  cases i <;> rfl

/-- The writes of a command do not depend on CODE. -/
theorem Block.writes_code {p : Params} (b : Block p) (i : Instr) : (b.writes i).code = b.code := by
  cases i <;> rfl

/-- A command word changes the block alone. -/
theorem State.runWord_next (s : State) (w : CmdWord) : ∃ b : Block s.params, s.runWord w = .next (s.withBlk b) := by
  unfold State.runWord
  split
  · exact ⟨_, rfl⟩
  · exact ⟨_, rfl⟩
  · next i _ => exact exec_next i s

/-- What a command word makes of the block does not depend on the host's coming edges or on the cycle. -/
theorem State.runWord_congr {s t : State} {w : CmdWord} (hp : t.params = s.params) (hb : t.blk = hp ▸ s.blk)
    {b : Block s.params} (h : s.runWord w = .next (s.withBlk b)) : t.runWord w = .next (t.withBlk (hp ▸ b)) := by
  obtain ⟨p, k, inputs, cycle⟩ := s
  obtain ⟨q, l, inputs', cycle'⟩ := t
  simp only at hp hb
  subst hp
  simp only at hb
  subst hb
  unfold State.runWord at h ⊢
  split
  · next hc =>
    rw [hc] at h
    cases h
    rfl
  · next hc =>
    rw [hc] at h
    cases h
    rfl
  · next i hc =>
    simp only [hc] at h
    obtain ⟨c, hk, hn⟩ | ⟨hk, hn⟩ := exec_cases i ⟨q, l, inputs, cycle⟩
    · rw [hn] at h
      cases h
      exact exec_of_check (s := ⟨q, l, inputs', cycle'⟩) hk
    · rw [hn] at h
      cases h
      exact exec_of_pass (s := ⟨q, l, inputs', cycle'⟩) hk

/-- A run of any machine takes its first step first. -/
theorem coreRun_succ (M : Host.Core) (k : Nat) (s t : M.State) (h : M.step s = .next t) : M.run (k + 1) s = M.run k t := by
  simp [Host.Core.run, h]

/-- A run of this machine takes its first step first. -/
theorem run_succ {s t : State} {k : Nat} (h : step s = .next t) : Sys2Proof.core.run (k + 1) s = Sys2Proof.core.run k t :=
  coreRun_succ Sys2Proof.core k s t h

/-- All that a step can do: reset, leave RESET, accept an offer or wait, count down, or commit the word in flight. -/
theorem step_cases (s : State) :
    (s.edgeNow.rst = true ∧ step s = .next (s.afterEdge (Block.reset s.params))) ∨
    (s.edgeNow.rst = false ∧ s.blk.phase = .reset ∧ step s = .next (s.afterEdge (s.blk.setPhase .idle))) ∨
    (s.edgeNow.rst = false ∧ s.blk.phase = .idle ∧ step s = .next (s.afterEdge (s.blk.afterOffer s.edgeNow))) ∨
    (∃ cmd din m, s.edgeNow.rst = false ∧ s.blk.phase = .busy cmd din m ∧ 2 ≤ m ∧
      step s = .next (s.afterEdge (s.blk.setPhase (.busy cmd din (m - 1))))) ∨
    (∃ cmd din m, s.edgeNow.rst = false ∧ s.blk.phase = .busy cmd din m ∧ m ≤ 1 ∧
      ∃ b : Block s.params, s.runWord cmd = .next (s.withBlk b) ∧
        step s = .next (s.afterEdge (b.setPhase .idle))) := by
  cases hr : s.edgeNow.rst with
  | true => exact .inl ⟨rfl, by simp [step, clockEdge, hr]⟩
  | false =>
    cases hp : s.blk.phase with
    | reset => exact .inr (.inl ⟨rfl, rfl, by simp [step, clockEdge, hr, hp]⟩)
    | idle => exact .inr (.inr (.inl ⟨rfl, rfl, by simp [step, clockEdge, hr, hp]⟩))
    | busy cmd din m =>
      by_cases hm : 2 ≤ m
      · have h0 : m - 1 ≠ 0 := by omega
        exact .inr (.inr (.inr (.inl ⟨cmd, din, m, rfl, rfl, hm, by simp [step, clockEdge, hr, hp, h0]⟩)))
      · have h0 : m - 1 = 0 := by omega
        obtain ⟨b, hb⟩ := s.runWord_next cmd
        refine .inr (.inr (.inr (.inr ⟨cmd, din, m, rfl, rfl, by omega, b, hb, ?_⟩)))
        simp [step, clockEdge, hr, hp, h0, hb, onNext, State.committed_withBlk]

end Sys2Proof.Machine
end

