-- ==== Sys2Proof/Laws/Decoding.lean ====
section
/-!
SUPPORT. The syndrome as a linear map, bit by bit, and what a DECODE leaves once its syndrome and flipped position are
known.
-/
namespace Sys2Proof.Machine

variable {p : Params}

/-- `1 << q` has exactly the bit `q`. -/
theorem getLsbD_single (w q j : Nat) : (Vec.single w q).getLsbD j = (decide (j < w) && decide (j = q)) := by
  simp only [Vec.single, BitVec.getLsbD_shiftLeft, BitVec.getLsbD_one]
  by_cases h : j < w <;> by_cases h2 : j = q <;> simp [h, h2] <;> omega

/-- The loop of 41_decode.md R120, bit by bit, from any start value. -/
theorem Block.syndromeLoop_getLsbD (b : Block p) (r : Vec p.n) (j : Nat) (l : List Nat) (S : Vec p.r) :
    (l.foldl (fun S i => if r.getLsbD i then S ^^^ b.row i else S) S).getLsbD j =
      (S.getLsbD j ^^ (l.map fun i => r.getLsbD i && (b.row i).getLsbD j).foldr xor false) := by
  induction l generalizing S with
  | nil => simp
  | cons a l ih =>
    simp only [List.foldl_cons, ih, List.map_cons, List.foldr_cons]
    split
    · next h => simp [h]
    · next h => simp [h]

/-- Column `j` of the syndrome, over the rows as `Block.row` reads them. -/
theorem Block.syndrome_getLsbD (b : Block p) (r : Vec p.n) (j : Nat) :
    (b.syndrome r).getLsbD j =
      ((List.range p.n).map fun i => r.getLsbD i && (b.row i).getLsbD j).foldr xor false := by
  rw [Block.syndrome, Block.syndromeLoop_getLsbD]
  simp

/-- The syndrome is linear over GF(2). -/
theorem Block.syndrome_xor (b : Block p) (x y : Vec p.n) : b.syndrome (x ^^^ y) = b.syndrome x ^^^ b.syndrome y := by
  apply BitVec.eq_of_getLsbD_eq
  intro j hj
  simp only [BitVec.getLsbD_xor, Block.syndrome_getLsbD]
  induction List.range p.n with
  | nil => rfl
  | cons a l ih =>
    simp only [List.map_cons, List.foldr_cons, ih]
    cases x.getLsbD a <;> cases y.getLsbD a <;> cases (b.row a).getLsbD j <;> simp

/-- What a DECODE that passes its check leaves, from its syndrome and the position it flips. -/
theorem execDecode_of_flip {s : State} (h : s.blk.cfgOk = true) {hit : Option Nat} {S : Vec s.params.r}
    (hs : s.blk.syndrome s.blk.operand = S) (hf : s.blk.flipPosition S = hit) :
    exec .decode s = .next (s.withBlk
      ((s.blk.setResults S (errFlag S) (corrFlag hit) (idxValue hit) (flipAt s.blk.operand hit)).setCode .ok)) := by
  subst hf hs
  exact exec_of_pass (Block.check_decode h)

/-- In correction mode the flipped position of a non-zero syndrome is the lowest matching row's. -/
theorem Block.flipPosition_of_match {b : Block p} {S : Vec p.r} {q : Nat} (hm : b.mode = .correct) (hS : S ≠ 0)
    (hq : q < p.n) (h : b.row q = S) (hl : ∀ j < q, b.row j ≠ S) : b.flipPosition S = some q := by
  have hf := (b.firstMatch_eq_some S q).2 ⟨hq, h, hl⟩
  simp only [Block.flipPosition, hm]
  rw [if_neg hS, hf]

/-- In detection mode no position is flipped (41_decode.md R124). -/
theorem Block.flipPosition_of_detect {b : Block p} (hm : b.mode = .detect) (S : Vec p.r) : b.flipPosition S = none := by
  simp [Block.flipPosition, hm]

end Sys2Proof.Machine
end

