-- ==== Sys2Proof/Laws/PerInstr.lean ====
section
/-!
SUPPORT. Per command: its encoding has the fixed bits of its row of the pattern table (30_encoding.md R85).
-/
namespace Sys2Proof.Laws.OpcodeRow

/-- The encoding of a command whose operands fit has, under its row's mask, its row's match value. -/
def Statement (i : Instr) : Prop := i.wellFormed = true → encode i &&& i.rowMask = i.rowMatch

theorem nop : Statement .nop := by intro _; decide

theorem cmdWord_mask (opc : BitVec 4) (arg : BitVec 16) :
    cmdWord opc arg &&& 0xFFFF0000#32 = opc ++ 0#28 := by
  apply BitVec.eq_of_getLsbD_eq
  intro j hj
  have h : ∀ j < 32, (0xFFFF0000#32).getLsbD j = decide (16 ≤ j) := by decide
  simp only [cmdWord, BitVec.getLsbD_and, h j hj, BitVec.getLsbD_append]
  by_cases h16 : j < 16
  · have : ¬ 16 ≤ j := by omega
    simp [this, show j < 28 by omega]
  · by_cases h28 : j < 28
    · simp [h16, h28, show j - 16 < 12 by omega]
    · simp [h16, h28, show 16 ≤ j by omega, show ¬ j - 16 < 12 by omega, show j - 16 - 12 = j - 28 by omega]

theorem wrrow (i : Nat) : Statement (.wrrow i) := by
  intro _
  exact (cmdWord_mask 1 _).trans (show (1#4 ++ 0#28 : BitVec 32) = 0x10000000#32 by decide)

theorem rdrow (i : Nat) : Statement (.rdrow i) := by
  intro _
  exact (cmdWord_mask 2 _).trans (show (2#4 ++ 0#28 : BitVec 32) = 0x20000000#32 by decide)

theorem setmode (m : Mode) : Statement (.setmode m) := by
  intro _
  cases m <;> decide

theorem decode : Statement .decode := by intro _; decide

theorem clear : Statement .clear := by intro _; decide

end Sys2Proof.Laws.OpcodeRow
end

