-- ==== Sys2Proof/Tests/Slice0.lean ====
section
/-!
SUPPORT. Tests of the model by hand calculation from spec/ (the tables of 95_test_vectors.md and the examples in the
rules), and witnesses that the hypotheses of the statements can be met.
-/
namespace Sys2Proof.Tests
open Sys2Proof Sys2Proof.Machine

/-! Well-formedness: an index of 65536 fits no ARG field (30_encoding.md R83, R90). -/

theorem test_wellFormed_refuses : Instr.wellFormed (.wrrow 65536) = false ∧ Instr.wellFormed (.rdrow 65536) = false := by
  decide

theorem test_wellFormed_accepts : Instr.wellFormed (.wrrow 65535) = true ∧ Instr.wellFormed (.rdrow 65535) = true := by
  decide

/-! Decoding: words written bit by bit from the patterns of 30_encoding.md R85, OPC, RSV and ARG in turn. -/

theorem test_bits_matrix : classify 0b0001_000000000000_0000000000001101#32 = .legal (.wrrow 13) ∧
    classify 0b0001_000000000000_1000000000000001#32 = .legal (.wrrow 32769) ∧
    classify 0b0010_000000000000_0100000000000010#32 = .legal (.rdrow 16386) := by decide

theorem test_bits_decode : classify 0b0100_000000000000_0000000000000000#32 = .legal .decode ∧
    classify 0b0100_100000000000_0000000000000000#32 = .badReserved := by decide

theorem test_bits_control : classify 0b0000_000000000000_0000000000000000#32 = .legal .nop ∧
    classify 0b0011_000000000000_0000000000000001#32 = .legal (.setmode .detect) ∧
    classify 0b0011_000000000000_0000000000000000#32 = .legal (.setmode .correct) ∧
    classify 0b0101_000000000000_0000000000000000#32 = .legal .clear := by decide

/-! Decoding: the table of 95_test_vectors.md section 3.1. -/

theorem test_classify_nop : classify 0x00000000#32 = .legal .nop ∧ classify 0x00000001#32 = .badReserved ∧
    classify 0x00010000#32 = .badReserved := by decide

theorem test_classify_wrrow : classify 0x10000000#32 = .legal (.wrrow 0) ∧
    classify 0x1000FFFF#32 = .legal (.wrrow 65535) ∧ classify 0x10010000#32 = .badReserved ∧
    classify 0x1001FFFF#32 = .badReserved := by decide

theorem test_classify_rdrow : classify 0x20000003#32 = .legal (.rdrow 3) ∧ classify 0x2000000E#32 = .legal (.rdrow 14) := by
  decide

theorem test_classify_setmode : classify 0x30000000#32 = .legal (.setmode .correct) ∧
    classify 0x30000001#32 = .legal (.setmode .detect) ∧ classify 0x30000002#32 = .badReserved := by decide

theorem test_classify_decode : classify 0x40000000#32 = .legal .decode ∧ classify 0x40000001#32 = .badReserved ∧
    classify 0x40010000#32 = .badReserved := by decide

theorem test_classify_clear : classify 0x50000000#32 = .legal .clear ∧ classify 0x5000FFFF#32 = .badReserved := by decide

theorem test_classify_badOpcode : classify 0x60000000#32 = .badOpcode ∧ classify 0x60010000#32 = .badOpcode ∧
    classify 0xF0000000#32 = .badOpcode ∧ classify 0xFFFFFFFF#32 = .badOpcode := by decide

/-- The encodings of 30_encoding.md R90. -/
theorem test_encode : encode .nop = 0x00000000#32 ∧ encode (.wrrow 13) = 0x1000000D#32 ∧
    encode (.rdrow 5) = 0x20000005#32 ∧ encode (.setmode .detect) = 0x30000001#32 ∧ encode .decode = 0x40000000#32 ∧
    encode .clear = 0x50000000#32 := by decide

/-- The host's word interface reads the same words. -/
theorem test_decodeTableWord : decodeTableWord 32 0x20000003 = some (.rdrow 3) ∧ decodeTableWord 32 0x60000000 = none := by
  decide

/-! Small instances. -/

/-- The (4,2) instance of 95_test_vectors.md section 3.7. -/
def p42 : Params where
  n := 4
  k := 2
  two_le_n := by decide
  n_le_65536 := by decide
  one_le_k := by decide
  k_lt_n := by decide

/-- The (5,3) instance of 95_test_vectors.md section 2.3. -/
def p53 : Params where
  n := 5
  k := 3
  two_le_n := by decide
  n_le_65536 := by decide
  one_le_k := by decide
  k_lt_n := by decide

/-- The (14,10) instance of 95_test_vectors.md section 2.1. -/
def p1410 : Params := Config.resetParams

/-- The rows of 95_test_vectors.md section 2.1. -/
def rows1410 : List Nat := [0x3, 0x5, 0x9, 0x6, 0xA, 0xC, 0x7, 0xB, 0xD, 0xE, 0x1, 0x2, 0x4, 0x8]

/-- A machine with the given rows stored from row 0 on, and a command due at the next edge. -/
def due (p : Params) (rows : List Nat) (m : Mode) (cmd : CmdWord) (din : Nat) : State where
  params := p
  blk := { Block.reset p with
    ht := rowsFrom 0 (rows.map (BitVec.ofNat p.r)), mode := m, phase := .busy cmd (BitVec.ofNat p.n din) 1 }
  inputs := []
  cycle := 7

/-- The columns of the tables of 95_test_vectors.md. -/
structure Row where
  code : ResultCode
  err : Bool
  corr : Bool
  idx : Nat
  dout : Nat
  synd : Nat
  mode : Mode
  cfgOk : Bool
deriving DecidableEq, Repr

/-- The result registers after a step. -/
def results (o : Host.Outcome State Fault Refusal) : Option Row :=
  match o with
  | .next t => some ⟨t.blk.code, t.blk.err, t.blk.corr, t.blk.idx.toNat, t.blk.dout.toNat, t.blk.synd.toNat,
      t.blk.mode, t.blk.cfgOk⟩
  | .fault _ => none
  | .refused _ => none

/-! The commands, one step each. -/

/-- 95_test_vectors.md section 3.2 step 2: the upper bits of din are ignored. -/
theorem test_wrrow : (match step (due p1410 [] .correct 0x10000003#32 0x3FF6) with
    | .next t => (t.blk.ht.map fun c => (c.1, c.2.toNat), t.blk.code)
    | .fault _ => ([], .badIndex)
    | .refused _ => ([], .badIndex)) = ([(3, 0x6)], .ok) := by decide

/-- Section 3.2 step 7: row 14 is out of range. -/
theorem test_wrrow_badIndex : results (step (due p1410 [] .correct 0x1000000E#32 0x0008)) =
    some ⟨.badIndex, false, false, 0, 0, 0, .correct, false⟩ := by decide

/-- 40_matrix.md R102, example: row 5 holds 0xC. -/
theorem test_rdrow : results (step (due p1410 rows1410 .detect 0x20000005#32 0x3FFF)) =
    some ⟨.ok, false, false, 0, 0xC, 0, .detect, true⟩ := by decide

/-- 95_test_vectors.md section 3.1: RDROW 3 after reset; RDROW 14 is BAD_INDEX, not ROW_UNWRITTEN. -/
theorem test_rdrow_refused : results (step (due p1410 [] .correct 0x20000003#32 0)) =
    some ⟨.rowUnwritten, false, false, 0, 0, 0, .correct, false⟩ ∧
    results (step (due p1410 [] .correct 0x2000000E#32 0)) =
    some ⟨.badIndex, false, false, 0, 0, 0, .correct, false⟩ := by decide

/-- Sections 3.3 and 3.7: a correction, a lookup miss, and the lowest of two equal rows. -/
theorem test_decode_correct : results (step (due p1410 rows1410 .correct 0x40000000#32 0x0C21)) =
    some ⟨.ok, true, true, 5, 0x0C01, 0xC, .correct, true⟩ ∧
    results (step (due p1410 rows1410 .correct 0x40000000#32 0x2040)) =
    some ⟨.ok, true, false, 0, 0x2040, 0xF, .correct, true⟩ ∧
    results (step (due p42 [3, 3, 1, 2] .correct 0x40000000#32 0xC)) =
    some ⟨.ok, true, true, 0, 0xD, 0x3, .correct, true⟩ := by decide

/-- Sections 3.4, 3.6 and 3.8: detection, a zero row, and an unconfigured block. -/
theorem test_decode_other : results (step (due p1410 rows1410 .detect 0x40000000#32 0x0C02)) =
    some ⟨.ok, true, false, 0, 0x0C02, 0x6, .detect, true⟩ ∧
    results (step (due p53 [0, 1, 2, 1, 2] .correct 0x40000000#32 0x01)) =
    some ⟨.ok, false, false, 0, 0x01, 0, .correct, true⟩ ∧
    results (step (due p1410 rows1410.tail .correct 0x40000000#32 0)) =
    some ⟨.notConfigured, false, false, 0, 0, 0, .correct, false⟩ := by decide

/-- Section 3.9: CODE becomes OK. -/
theorem test_nop : results (match step (due p42 [1] .detect 0x00000001#32 0) with
    | .next t => step (t.withFetchWord 32 0x00000000)
    | .fault r => .fault r
    | .refused r => .refused r) = some ⟨.ok, false, false, 0, 0, 0, .detect, false⟩ := by decide

/-- Section 3.9: SETMODE DETECT, and a reserved bit that leaves MODE. -/
theorem test_setmode : results (step (due p42 [] .correct 0x30000001#32 0)) =
    some ⟨.ok, false, false, 0, 0, 0, .detect, false⟩ ∧
    results (step (due p42 [] .detect 0x30000002#32 0)) =
    some ⟨.badReserved, false, false, 0, 0, 0, .detect, false⟩ := by decide

/-- Section 3.9: CLEAR of a loaded block in detection mode. -/
theorem test_clear : results (step (due p42 [3, 1, 1, 2] .detect 0x50000000#32 0)) =
    some ⟨.ok, false, false, 0, 0, 0, .correct, false⟩ := by decide

/-- The words of 60_exceptions.md R164, with their codes. -/
theorem test_priority : (results (step (due p1410 [] .correct 0x60010000#32 0))).map Row.code = some .badOpcode ∧
    (results (step (due p1410 [] .correct 0x1001FFFF#32 0))).map Row.code = some .badReserved ∧
    (results (step (due p1410 [] .correct 0x40000001#32 0))).map Row.code = some .badReserved := by decide

/-- The first command after reset runs at the next step. -/
theorem test_withFetchWord_first : results (step (State.reset.withFetchWord 32 0x30000001)) =
    some ⟨.ok, false, false, 0, 0, 0, .detect, false⟩ := by decide

/-! The handshake: the timeline of 95_test_vectors.md section 3.10, edge by edge. -/

/-- An idle machine with one edge to come. -/
def idleWith (rst valid : Bool) (cmd : CmdWord) (extraLat : Nat) (ph : Phase p42) : State where
  params := p42
  blk := { Block.reset p42 with phase := ph }
  inputs := [{ rst := rst, cmdValid := valid, cmd := cmd, din := 5, extraLat := extraLat }]
  cycle := 0

/-- The count of a BUSY phase and whether the phase is IDLE. -/
def phaseView (o : Host.Outcome State Fault Refusal) : Option (Option Nat × Bool × Nat) :=
  match o with
  | .next t =>
    match t.blk.phase with
    | .busy _ d m => some (some m, false, d.toNat)
    | .reset => some (none, false, 0)
    | .idle => some (none, true, 0)
  | .fault _ => none
  | .refused _ => none

/-- Edges e1 and e2: an offer on the first edge after reset is not accepted; on the next it is, with `LAT = 2`. -/
theorem test_accept : phaseView (step (idleWith false true 0x30000001#32 1 .reset)) = some (none, true, 0) ∧
    phaseView (step (idleWith false true 0x30000001#32 1 .idle)) = some (some 2, false, 5) := by decide

/-- Edges e3 and e6: the offer is ignored in BUSY; reset wins over the commit. -/
theorem test_busy : phaseView (step (idleWith false true 0x00000000#32 0 (.busy 0x30000001#32 9 2))) =
    some (some 1, false, 9) ∧
    phaseView (step (idleWith true false 0x00000000#32 0 (.busy 0x30000001#32 9 1))) = some (none, false, 0) := by decide

/-! The host-side reference (95_test_vectors.md sections 1 and 2). -/

/-- W1: tc = 1 and dmin = 3 for (14,10); section 2.1: its rows. -/
theorem test_reference_1410 : referenceTc p1410 = 1 ∧ referenceDmin p1410 = 3 ∧
    (referenceRows p1410).map (List.map BitVec.toNat) = some rows1410 := by decide

/-- Section 2.3: the (5,3) rows; section 2.1: the codeword of U = 0x155; 30_encoding.md R11. -/
theorem test_reference_other : (referenceRows p53).map (List.map BitVec.toNat) = some [0, 1, 2, 1, 2] ∧
    (encodeWord (p := p1410) ((rows1410.take 10).map (BitVec.ofNat 4)) (BitVec.ofNat 10 0x155)).toNat = 0x2955 ∧
    (ofPositions [true, true, false, false] : Vec 4) = 0x3#4 := by decide

/-- 10_state.md R47, example: (4,3) has only two candidate rows. -/
theorem test_reference_fails : referenceRows ⟨4, 3, by decide, by decide, by decide, by decide⟩ = none := by decide

/-- 30_encoding.md R90, R91, and the detection result of program P2 (95_test_vectors.md section 4). -/
theorem test_assembler : (asmWrrow p1410 5 0xC).map (fun a => (encode a.instr, a.din.map BitVec.toNat)) =
    some (0x10000005#32, some 0xC) ∧ asmWrrow p1410 65536 0 = none ∧ asmWrrow p1410 5 16 = none ∧
    asmRdrow p1410 65536 = none ∧ asmDecode p1410 0x4000 = none ∧ (asmLoadRef p1410).map List.length = some 14 ∧
    batchIndices [false, true, true] = [1, 2] := by decide

/-! Witnesses: for each statement with hypotheses, a concrete state and operands that meet all of them together. -/

/-- The (3,1) instance: three rows of two bits, which can be non-zero and distinct. -/
def p31 : Params where
  n := 3
  k := 1
  two_le_n := by decide
  n_le_65536 := by decide
  one_le_k := by decide
  k_lt_n := by decide

/-- A (4,2) machine with every row stored and a word due. -/
def loaded (m : Mode) (din : Nat) : State := due p42 [3, 3, 1, 2] m 0x40000000#32 din

/-- The rows as a function. -/
def rowFn (p : Params) (rows : List Nat) (i : Nat) : Vec p.r := BitVec.ofNat p.r (rows.getD i 0)

theorem witness_ClassifyOfEncode : (Instr.wrrow 65535).wellFormed = true ∧ (Instr.rdrow 0).wellFormed = true := by decide

theorem witness_EncodeOfClassify : classify 0x2000FFFF#32 = .legal (.rdrow 65535) := by decide

theorem witness_CanonicalStoresEqual : ∃ a b : Memory 4, a.wf 14 ∧ b.wf 14 ∧ ∀ i, a.read i = b.read i :=
  ⟨[(13, 3#4)], Memory.write [] 13 3#4, by decide, by decide, fun _ => rfl⟩

/-- Each clause of WRROW: the lowest and the highest row, every other row valid, the first index out of range, and a
word with and without a reserved bit. -/
theorem witness_WrrowWritesRow : 0 < (loaded .correct 0).params.n ∧ 3 < (loaded .correct 0).params.n ∧
    (∀ a < (due p42 [3, 3, 1] .correct 0#32 0).params.n, a ≠ 3 →
      (due p42 [3, 3, 1] .correct 0#32 0).blk.rv a = true) ∧
    (loaded .correct 0).params.n ≤ 4 ∧
    (0x1FFF0000#32).toNat / 2 ^ 28 = 1 ∧ (0x1FFF0000#32).toNat / 2 ^ 16 % 2 ^ 12 ≠ 0 ∧
    (0x1000FFFF#32).toNat / 2 ^ 28 = 1 ∧ ¬ (0x1000FFFF#32).toNat / 2 ^ 16 % 2 ^ 12 ≠ 0 := by decide

theorem witness_WrrowIgnoresUpperDin : ∀ j < p42.r, (0b0111#4).getLsbD j = (0b1011#4).getLsbD j := by decide

/-- Each clause of RDROW: the lowest and the highest row written, the first index out of range, an unwritten row, and a
word with and without a reserved bit. -/
theorem witness_RdrowReadsRow : 3 < (loaded .correct 0).params.n ∧ (loaded .correct 0).blk.ht.read 3 = some 2 ∧
    0 < (loaded .correct 0).params.n ∧ (loaded .correct 0).blk.ht.read 0 = some 3 ∧
    (loaded .correct 0).params.n ≤ 4 ∧
    3 < (due p42 [3, 3, 1] .correct 0#32 0).params.n ∧ (due p42 [3, 3, 1] .correct 0#32 0).blk.ht.read 3 = none ∧
    (0x20010000#32).toNat / 2 ^ 28 = 2 ∧ (0x20010000#32).toNat / 2 ^ 16 % 2 ^ 12 ≠ 0 ∧
    (0x20000000#32).toNat / 2 ^ 28 = 2 ∧ ¬ (0x20000000#32).toNat / 2 ^ 16 % 2 ^ 12 ≠ 0 := by decide

/-- The largest instance: 65536 rows of one bit (00_scope.md R7). -/
def pMax : Params where
  n := 65536
  k := 65535
  two_le_n := by decide
  n_le_65536 := by decide
  one_le_k := by decide
  k_lt_n := by decide

theorem witness_IndexOutOfRangeIsBadIndex : (loaded .correct 0).params.n ≤ 4 ∧ (loaded .correct 0).params.n ≤ 65535 ∧
    (State.resetOf pMax).params.n = 65536 ∧ (Instr.wrrow 65535).wellFormed = true := ⟨by decide, by decide, rfl, by decide⟩

theorem ne_of_toNat {w : Nat} {a b : BitVec w} (h : a.toNat ≠ b.toNat) : a ≠ b := fun e => h (e ▸ rfl)

theorem holdsRows_loaded (m : Mode) (din : Nat) : (loaded m din).blk.holdsRows (rowFn p42 [3, 3, 1, 2]) := by
  intro i hi
  have : i < 4 := hi
  interval_cases i <;> rfl

/-- A (3,1) machine with the rows `a`, `b`, `c` and a DECODE due. -/
def three (a b c : Nat) (m : Mode) (din : Nat) : State := due p31 [a, b, c] m 0x40000000#32 din

theorem holdsRows_three (a b c : Nat) (m : Mode) (din : Nat) :
    (three a b c m din).blk.holdsRows (rowFn p31 [a, b, c]) := by
  intro i hi
  have : i < 3 := hi
  interval_cases i <;> rfl

theorem rowsDistinct_three : rowsDistinct p31.n (rowFn p31 [3, 1, 2]) := by
  show (∀ i < 3, _) ∧ ∀ i < 3, ∀ j < 3, _
  decide

theorem witness_DecodeSyndromeIsProduct : (loaded .detect 9).blk.holdsRows (rowFn p42 [3, 3, 1, 2]) :=
  holdsRows_loaded _ _

theorem witness_DecodeFlipsLowestMatch : (loaded .correct 2).blk.holdsRows (rowFn p42 [3, 3, 1, 2]) ∧
    (loaded .correct 2).blk.mode = .correct ∧
    (loaded .correct 2).blk.syndrome (loaded .correct 2).blk.operand ≠ 0 ∧ 0 < (loaded .correct 2).params.n ∧
    rowFn p42 [3, 3, 1, 2] 0 = (loaded .correct 2).blk.syndrome (loaded .correct 2).blk.operand ∧
    ∀ j < 0, rowFn p42 [3, 3, 1, 2] j ≠ (loaded .correct 2).blk.syndrome (loaded .correct 2).blk.operand :=
  ⟨holdsRows_loaded _ _, rfl, ne_of_toNat (by decide), by decide, rfl, by simp⟩

/-- The same at the last row. -/
theorem witness_DecodeFlipsLowestMatch_last : (loaded .correct 8).blk.holdsRows (rowFn p42 [3, 3, 1, 2]) ∧
    (loaded .correct 8).blk.mode = .correct ∧
    (loaded .correct 8).blk.syndrome (loaded .correct 8).blk.operand ≠ 0 ∧ 3 < (loaded .correct 8).params.n ∧
    rowFn p42 [3, 3, 1, 2] 3 = (loaded .correct 8).blk.syndrome (loaded .correct 8).blk.operand ∧
    ∀ j < 3, rowFn p42 [3, 3, 1, 2] j ≠ (loaded .correct 8).blk.syndrome (loaded .correct 8).blk.operand :=
  ⟨holdsRows_loaded _ _, rfl, ne_of_toNat (by decide), by decide, rfl, fun j hj => ne_of_toNat (by revert j; decide)⟩

/-- Rows 1, 1, 2: the syndrome 3 of the word 0b101 equals no row. -/
theorem witness_DecodePassesThroughOnMiss : (three 1 1 2 .correct 5).blk.holdsRows (rowFn p31 [1, 1, 2]) ∧
    (three 1 1 2 .correct 5).blk.mode = .correct ∧
    (three 1 1 2 .correct 5).blk.syndrome (three 1 1 2 .correct 5).blk.operand ≠ 0 ∧
    ∀ j < (three 1 1 2 .correct 5).params.n,
      rowFn p31 [1, 1, 2] j ≠ (three 1 1 2 .correct 5).blk.syndrome (three 1 1 2 .correct 5).blk.operand :=
  ⟨holdsRows_three _ _ _ _ _, rfl, ne_of_toNat (by decide), fun j hj => ne_of_toNat (by revert j; decide)⟩

/-- A codeword, and an error on the codeword 0 at a position whose row is zero. -/
theorem witness_DecodeAcceptsZeroSyndrome : (loaded .correct 3).blk.holdsRows (rowFn p42 [3, 3, 1, 2]) ∧
    (loaded .correct 3).blk.syndrome (loaded .correct 3).blk.operand = 0 ∧
    (three 0 1 2 .detect 1).blk.holdsRows (rowFn p31 [0, 1, 2]) ∧ (three 0 1 2 .detect 1).blk.syndrome 0 = 0 ∧
    0 < (three 0 1 2 .detect 1).params.n ∧ rowFn p31 [0, 1, 2] 0 = 0 ∧
    (three 0 1 2 .detect 1).blk.operand = (0 ^^^ (1#3 <<< 0) : Vec 3) :=
  ⟨holdsRows_loaded _ _, rfl, holdsRows_three _ _ _ _ _, rfl, by decide, rfl, rfl⟩

theorem witness_DetectionLeavesWord : (loaded .detect 1).blk.holdsRows (rowFn p42 [3, 3, 1, 2]) ∧
    (loaded .detect 1).blk.mode = .detect :=
  ⟨holdsRows_loaded _ _, rfl⟩

theorem witness_CorrectionModeResult : (loaded .correct 8).blk.holdsRows (rowFn p42 [3, 3, 1, 2]) ∧
    (loaded .correct 8).blk.mode = .correct :=
  ⟨holdsRows_loaded _ _, rfl⟩

/-- Distinct rows, the codeword 0b111 and an error at the last position. -/
theorem witness_SingleErrorCorrected : (three 3 1 2 .correct 3).blk.holdsRows (rowFn p31 [3, 1, 2]) ∧
    rowsDistinct (three 3 1 2 .correct 3).params.n (rowFn p31 [3, 1, 2]) ∧ (three 3 1 2 .correct 3).blk.mode = .correct ∧
    (three 3 1 2 .correct 3).blk.syndrome (7#3) = 0 ∧ 2 < (three 3 1 2 .correct 3).params.n ∧
    (three 3 1 2 .correct 3).blk.operand = (7#3 ^^^ (1#3 <<< 2) : Vec 3) :=
  ⟨holdsRows_three _ _ _ _ _, rowsDistinct_three, rfl, rfl, by decide, rfl⟩

/-- A zero row at the error, and a lower row equal to the row of the error. -/
theorem witness_SingleErrorCorrected_premise : (three 0 1 2 .correct 1).blk.holdsRows (rowFn p31 [0, 1, 2]) ∧
    (three 0 1 2 .correct 1).blk.mode = .correct ∧ (three 0 1 2 .correct 1).blk.syndrome 0 = 0 ∧
    (three 0 1 2 .correct 1).blk.operand = (0 ^^^ (1#3 <<< 0) : Vec 3) ∧ rowFn p31 [0, 1, 2] 0 = 0 ∧
    (three 1 1 2 .correct 2).blk.holdsRows (rowFn p31 [1, 1, 2]) ∧ (three 1 1 2 .correct 2).blk.mode = .correct ∧
    (three 1 1 2 .correct 2).blk.syndrome 0 = 0 ∧
    (three 1 1 2 .correct 2).blk.operand = (0 ^^^ (1#3 <<< 1) : Vec 3) ∧
    rowFn p31 [1, 1, 2] 1 ≠ 0 ∧ rowFn p31 [1, 1, 2] 0 = rowFn p31 [1, 1, 2] 1 :=
  ⟨holdsRows_three _ _ _ _ _, rfl, rfl, rfl, rfl, holdsRows_three _ _ _ _ _, rfl, rfl, rfl, ne_of_toNat (by decide), rfl⟩

/-- Distinct rows, the codeword 0b111: an error pattern, one error, two errors. -/
theorem witness_DetectionFlags : (three 3 1 2 .detect 2).blk.holdsRows (rowFn p31 [3, 1, 2]) ∧
    (three 3 1 2 .detect 2).blk.mode = .detect ∧ (three 3 1 2 .detect 2).blk.syndrome (7#3) = 0 ∧
    rowsDistinct (three 3 1 2 .detect 2).params.n (rowFn p31 [3, 1, 2]) ∧
    (three 3 1 2 .detect 2).blk.operand = (7#3 ^^^ 5#3 : Vec 3) ∧
    (three 3 1 2 .detect 2).blk.operand = (7#3 ^^^ (1#3 <<< 0) ^^^ (1#3 <<< 2) : Vec 3) ∧
    (three 3 1 2 .detect 3).blk.syndrome (7#3) = 0 ∧
    (three 3 1 2 .detect 3).blk.operand = (7#3 ^^^ (1#3 <<< 2) : Vec 3) :=
  ⟨holdsRows_three _ _ _ _ _, rfl, rfl, rowsDistinct_three, rfl, rfl, rfl, rfl⟩

/-- A zero row at the error, and two errors at positions with equal rows. -/
theorem witness_DetectionFlags_unflagged : (three 0 1 2 .detect 1).blk.holdsRows (rowFn p31 [0, 1, 2]) ∧
    (three 0 1 2 .detect 1).blk.syndrome 0 = 0 ∧
    (three 0 1 2 .detect 1).blk.operand = (0 ^^^ (1#3 <<< 0) : Vec 3) ∧ rowFn p31 [0, 1, 2] 0 = 0 ∧
    (three 1 1 2 .detect 3).blk.holdsRows (rowFn p31 [1, 1, 2]) ∧ (three 1 1 2 .detect 3).blk.syndrome 0 = 0 ∧
    (three 1 1 2 .detect 3).blk.operand = (0 ^^^ (1#3 <<< 0) ^^^ (1#3 <<< 1) : Vec 3) ∧
    rowFn p31 [1, 1, 2] 0 = rowFn p31 [1, 1, 2] 1 :=
  ⟨holdsRows_three _ _ _ _ _, rfl, rfl, rfl, holdsRows_three _ _ _ _ _, rfl, rfl, rfl⟩

theorem witness_DecodeChecks : 3 < (due p42 [3, 3, 1] .correct 0#32 0).params.n ∧
    (due p42 [3, 3, 1] .correct 0#32 0).blk.ht.read 3 = none ∧
    (0x48000000#32).toNat / 2 ^ 28 = 4 ∧ (0x48000000#32).toNat % 2 ^ 28 ≠ 0 ∧
    (0x40000000#32).toNat / 2 ^ 28 = 4 ∧ ¬ (0x40000000#32).toNat % 2 ^ 28 ≠ 0 := by decide

theorem witness_DecodeIsDeterministic : (loaded .detect 0).blk.cfgOk = true := by decide

theorem witness_NopWritesOnlyCode : (0x08000000#32).toNat / 2 ^ 28 = 0 ∧ (0x08000000#32).toNat % 2 ^ 28 ≠ 0 ∧
    (0x00000000#32).toNat / 2 ^ 28 = 0 ∧ ¬ (0x00000000#32).toNat % 2 ^ 28 ≠ 0 := by decide

theorem witness_SetmodeWritesMode : (0x30000002#32).toNat / 2 ^ 28 = 3 ∧ (0x30000002#32).toNat % 2 ^ 28 / 2 ≠ 0 ∧
    (0x30000001#32).toNat / 2 ^ 28 = 3 ∧ ¬ (0x30000001#32).toNat % 2 ^ 28 / 2 ≠ 0 ∧
    (0x30000000#32).toNat / 2 ^ 28 = 3 ∧ ¬ (0x30000000#32).toNat % 2 ^ 28 / 2 ≠ 0 := by decide

theorem witness_ClearRestoresResetState : (0x50000001#32).toNat / 2 ^ 28 = 5 ∧ (0x50000001#32).toNat % 2 ^ 28 ≠ 0 ∧
    (0x50000000#32).toNat / 2 ^ 28 = 5 ∧ ¬ (0x50000000#32).toNat % 2 ^ 28 ≠ 0 ∧
    3 < (loaded .detect 0).params.n ∧ ∃ t, exec .clear (loaded .detect 0) = .next t :=
  ⟨by decide, by decide, by decide, by decide, by decide, _, rfl⟩

/-- A step that commits a DECODE, and a step in RESET. -/
theorem witness_ModePersists : (loaded .detect 1).edgeNow.rst = false ∧
    (loaded .detect 1).blk.phase = .busy 0x40000000#32 (1#4) 1 ∧
    (∀ x, classify 0x40000000#32 ≠ .legal (.setmode x)) ∧ classify 0x40000000#32 ≠ .legal .clear ∧
    (∃ t, step (loaded .detect 1) = .next t) ∧
    State.reset.edgeNow.rst = false ∧ ∃ t, step State.reset = .next t :=
  ⟨rfl, rfl, fun x => by cases x <;> decide, by decide, ⟨_, rfl⟩, rfl, _, rfl⟩

theorem witness_OnlyWrrowAndClearChangeRows : (∀ a, Instr.rdrow 3 ≠ .wrrow a) ∧ Instr.rdrow 3 ≠ .clear :=
  ⟨by simp, by simp⟩

theorem witness_RowValidHistory : ∃ t, step (loaded .correct 0) = .next t := ⟨_, rfl⟩

theorem witness_ResultRegistersKept : Instr.wrrow 0 ≠ .decode ∧ Instr.wrrow 0 ≠ .clear ∧ (∀ a, Instr.wrrow 0 ≠ .rdrow a) ∧
    Instr.rdrow 0 ≠ .decode ∧ Instr.rdrow 0 ≠ .clear := ⟨by simp, by simp, by simp, by simp, by simp⟩

/-- A word that is a legal command. -/
theorem witness_CodePriority : classify 0x2000000E#32 = .legal (.rdrow 14) := by decide

/-- A word that ends with a code other than OK. -/
theorem witness_RefusedWordsChangeOnlyCode : (loaded .correct 0).runWord 0x10000004#32 =
    .next ((loaded .correct 0).withBlk { (loaded .correct 0).blk with code := .badIndex }) := rfl

theorem witness_IllegalWordsRefused : 6 ≤ (0x60000000#32).toNat / 2 ^ 28 ∧
    (0x5FFF0000#32).toNat / 2 ^ 28 < 6 ∧ (0x5FFF0000#32).toNat / 2 ^ 16 % 2 ^ 12 ≠ 0 ∧
    (0x50000001#32).toNat / 2 ^ 28 ∈ [0, 4, 5] ∧ (0x50000001#32).toNat % 2 ^ 16 ≠ 0 ∧
    (0x30000002#32).toNat / 2 ^ 28 = 3 ∧ (0x30000002#32).toNat % 2 ^ 16 / 2 ≠ 0 := by decide

theorem witness_StepRunsDecodedCommand : (loaded .correct 5).edgeNow.rst = false ∧
    (loaded .correct 5).blk.phase = .busy 0x40000000#32 (5#4) 1 ∧ classify 0x40000000#32 = .legal .decode := by decide

theorem witness_StepRefusesIllegalWord : (due p42 [] .correct 0xFFFFFFFF#32 5).edgeNow.rst = false ∧
    (due p42 [] .correct 0xFFFFFFFF#32 5).blk.phase = .busy 0xFFFFFFFF#32 (5#4) 1 ∧
    classify 0xFFFFFFFF#32 = .badOpcode ∧
    (due p42 [] .correct 0x00000001#32 5).edgeNow.rst = false ∧
    (due p42 [] .correct 0x00000001#32 5).blk.phase = .busy 0x00000001#32 (5#4) 1 ∧
    classify 0x00000001#32 = .badReserved := by decide

theorem witness_ResetWins : (idleWith true true 0#32 0 (.busy 0x50000000#32 5 1)).edgeNow.rst = true ∧
    State.reset.blk.phase = .reset := ⟨rfl, rfl⟩

/-- Both clauses: the first edge with `rst = 0`, and a further edge with `rst = 1`. -/
theorem witness_LeavingReset : State.reset.Inv ∧ State.reset.edgeNow.rst = false ∧ State.reset.blk.phase = .reset ∧
    (idleWith true true 0#32 0 .reset).Inv ∧ (idleWith true true 0#32 0 .reset).edgeNow.rst = true ∧
    (idleWith true true 0#32 0 .reset).blk.phase = .reset := by
  decide

theorem witness_IdleAcceptsOffer : (idleWith false true 0x60000000#32 0 .idle).edgeNow.rst = false ∧
    (idleWith false true 0x60000000#32 0 .idle).blk.phase = .idle ∧
    (idleWith false true 0x60000000#32 0 .idle).edgeNow.cmdValid = true ∧
    (idleWith false false 0x60000000#32 0 .idle).edgeNow.cmdValid = false := by decide

/-- Each alternative: a phase that is not IDLE, an edge with `rst = 1`, and edges with no offer. -/
theorem witness_OffersIgnoredUnlessAccepted : (loaded .correct 0).blk.phase ≠ .idle ∧
    (Edge.quiet p42).rst = ({ Edge.quiet p42 with cmdValid := true, cmd := 0x50000000#32 } : Edge p42).rst ∧
    ({ Edge.quiet p42 with rst := true } : Edge p42).rst = true ∧
    (Edge.quiet p42).cmdValid = false ∧ ({ Edge.quiet p42 with cmd := 1 } : Edge p42).cmdValid = false := by decide

theorem witness_BusyCountsDown : (idleWith false true 0#32 0 (.busy 0x50000000#32 5 2)).edgeNow.rst = false ∧
    (idleWith false true 0#32 0 (.busy 0x50000000#32 5 2)).blk.phase = .busy 0x50000000#32 5 (0 + 2) := by decide

theorem witness_AcceptedCommandCommits : ∃ e : Edge p42, (idleWith false true 0x30000001#32 1 .idle).blk.phase = .idle ∧
    (idleWith false true 0x30000001#32 1 .idle).inputs = [e] ∧ e.rst = false ∧ e.cmdValid = true ∧
    (idleWith false true 0x30000001#32 1 .idle).noResetFor (e.extraLat + 2) :=
  ⟨_, rfl, rfl, rfl, rfl, by intro x hx; cases hx with
    | head => rfl
    | tail _ h => cases h⟩

theorem witness_ParametersFixed : ∃ t, step State.reset = .next t := ⟨_, rfl⟩

theorem witness_PortsShowRegisters : (idleWith false false 0#32 0 .idle).resultsReadable := rfl

theorem witness_StepKeepsInvariant : (loaded .correct 8).Inv ∧ (∃ t, step (loaded .correct 8) = .next t) :=
  ⟨by decide, _, rfl⟩

theorem witness_CodewordsHaveZeroSyndrome : ([1#2, 3#2] : List (Vec p42.r)).length = p42.k ∧
    (due p42 [1, 3, 1, 2] .correct 0x40000000#32 0).blk.ht = rowsFrom 0 (systematicRows p42 [1#2, 3#2]) :=
  ⟨rfl, rfl⟩

theorem witness_SourceWordRecovered : ([1#2, 3#2] : List (Vec p42.r)).length = p42.k ∧
    (due p42 [1, 3, 1, 2] .correct 0x40000000#32 0xB).blk.ht = rowsFrom 0 (systematicRows p42 [1#2, 3#2]) ∧
    (due p42 [1, 3, 1, 2] .correct 0x40000000#32 0xB).blk.operand =
      encodeWord (p := p42) [1#2, 3#2] (3#2 : Vec p42.k) := ⟨rfl, rfl, rfl⟩

theorem witness_ReferenceRowsDistinct : 3 ≤ referenceDmin p1410 ∧ (referenceRows p1410).isSome = true ∧
    referenceDmin p53 = 1 ∧ (referenceRows p53).isSome = true ∧ p53.n = 5 ∧ p53.k = 3 := by decide

end Sys2Proof.Tests
end

section
/-!
The scope of the block (spec/00_scope.md): every step completes and keeps the instance. Both follow from one fact, that
a step is an edge that leaves some block of the same instance.
-/
namespace Sys2Proof.Machine

/-- Every step answers a next state: the edge is consumed, a new cycle begins, and only the block is open. -/
theorem step_next (s : State) : ∃ b : Block s.params, step s = .next (s.afterEdge b) := by
  obtain ⟨-, hreset⟩ | ⟨-, -, hleave⟩ | ⟨-, -, hoffer⟩ | ⟨_, _, _, -, -, -, hcount⟩ |
    ⟨_, _, _, -, -, -, _, -, hcommit⟩ := step_cases s
  · exact ⟨_, hreset⟩
  · exact ⟨_, hleave⟩
  · exact ⟨_, hoffer⟩
  · exact ⟨_, hcount⟩
  · exact ⟨_, hcommit⟩

/-- Settles O41: no edge answers a fault or a refusal (R15, R165). -/
theorem everyStepCompletes : Obligations.EveryStepCompletes := by
  intro s
  obtain ⟨b, hstep⟩ := step_next s
  exact ⟨s.afterEdge b, hstep⟩

/-- Settles O42: the one next state is `s.afterEdge b`, which keeps the parameters (R7). -/
theorem parametersFixed : Obligations.ParametersFixed := by
  intro s t ht
  obtain ⟨b, hstep⟩ := step_next s
  obtain rfl : s.afterEdge b = t := Host.Outcome.next.inj (hstep.symm.trans ht)
  exact s.afterEdge_params b

end Sys2Proof.Machine
end

section
/-!
The state of the block (spec/10_state.md): which command writes which register, what the ports show, and the reset
state. Each register's statement is one lemma about `Block.writes`, the writes of a command that passes its checks.
-/
namespace Sys2Proof.Machine

variable {p : Params}

/-! The writes of a command, register by register. -/

/-- WRROW and CLEAR alone write the row store (10_state.md R23). -/
theorem Block.writes_ht (b : Block p) {i : Instr} (hw : ∀ a, i ≠ .wrrow a) (hc : i ≠ .clear) :
    (b.writes i).ht = b.ht := by
  cases i with
  | wrrow a => exact absurd rfl (hw a)
  | clear => exact absurd rfl hc
  | nop | rdrow | setmode | decode => rfl

/-- DECODE and CLEAR alone write ERR, CORR, IDX and SYND (10_state.md R29, R30, R31, R33). -/
theorem Block.writes_results (b : Block p) {i : Instr} (hd : i ≠ .decode) (hc : i ≠ .clear) :
    (b.writes i).err = b.err ∧ (b.writes i).corr = b.corr ∧ (b.writes i).idx = b.idx ∧ (b.writes i).synd = b.synd := by
  cases i with
  | decode => exact absurd rfl hd
  | clear => exact absurd rfl hc
  | nop | wrrow | rdrow | setmode => exact ⟨rfl, rfl, rfl, rfl⟩

/-- RDROW, DECODE and CLEAR alone write DOUT (10_state.md R32). -/
theorem Block.writes_dout (b : Block p) {i : Instr} (hr : ∀ a, i ≠ .rdrow a) (hd : i ≠ .decode) (hc : i ≠ .clear) :
    (b.writes i).dout = b.dout := by
  cases i with
  | rdrow a => exact absurd rfl (hr a)
  | decode => exact absurd rfl hd
  | clear => exact absurd rfl hc
  | nop | wrrow | setmode => rfl

/-- Settles O26: a refusal writes CODE alone, and the writes of these commands leave the row store (R23, R69). -/
theorem onlyWrrowAndClearChangeRows : Obligations.OnlyWrrowAndClearChangeRows := by
  intro s i hw hc
  obtain ⟨c, -, hexec⟩ | ⟨-, hexec⟩ := exec_cases i s
  · exact ⟨_, hexec, rfl⟩
  · exact ⟨_, hexec, s.blk.writes_ht hw hc⟩

/-- Settles O28: a refusal writes CODE alone, and the writes of these commands leave the result registers. -/
theorem resultRegistersKept : Obligations.ResultRegistersKept := by
  intro s i hd hc
  obtain ⟨c, -, hexec⟩ | ⟨-, hexec⟩ := exec_cases i s
  · exact ⟨_, hexec, rfl, rfl, rfl, rfl, fun _ => rfl⟩
  · obtain ⟨herr, hcorr, hidx, hsynd⟩ := s.blk.writes_results hd hc
    exact ⟨_, hexec, herr, hcorr, hidx, hsynd, fun hr => s.blk.writes_dout hr hd hc⟩

/-! The row-valid bits over a command, a command word and a step (10_state.md R24). -/

@[simp] theorem Block.rv_setCode (b : Block p) (c : ResultCode) : (b.setCode c).rv = b.rv := rfl
@[simp] theorem Block.rv_raise (b : Block p) (c : ResultCode) : (b.raise c).rv = b.rv := rfl
@[simp] theorem Block.rv_setPhase (b : Block p) (ph : Phase p) : (b.setPhase ph).rv = b.rv := rfl
@[simp] theorem Block.rv_clear (b : Block p) (i : Nat) : b.clear.rv i = false := rfl
@[simp] theorem Block.rv_reset (p : Params) (i : Nat) : (Block.reset p).rv i = false := rfl

/-- An offer is sampled into the phase alone (70_reset_and_hazards.md R187). -/
@[simp] theorem Block.rv_afterOffer (b : Block p) (e : Edge p) : (b.afterOffer e).rv = b.rv := by
  unfold Block.afterOffer
  split <;> rfl

/-- After a write of row `a` the written rows are `a` and those written before. -/
theorem Block.rv_writeRow (b : Block p) (a : Nat) (v : Vec p.r) (i : Nat) :
    (b.writeRow a v).rv i = true ↔ a = i ∨ b.rv i = true := by
  rw [Block.rv, Block.rv, Memory.isSome_read, Memory.isSome_read, Block.writeRow_ht, Memory.mem_keys_write, eq_comm]

/-- The row-valid bits depend on the row store alone. -/
theorem Block.rv_congr {b c : Block p} (h : b.ht = c.ht) (i : Nat) : b.rv i = c.rv i := by
  rw [Block.rv, Block.rv, h]

/-- Where a command that passes its checks leaves `RV[i]` 1. -/
theorem Block.rv_writes (b : Block p) (c : Instr) (i : Nat) :
    (b.writes c).rv i = true ↔ c = .wrrow i ∨ (b.rv i = true ∧ c ≠ .clear) := by
  cases c with
  | wrrow a => exact (b.rv_writeRow a (rowOperand b.operand) i).trans (by simp)
  | clear => simp [Block.writes]
  | nop | rdrow | setmode | decode => rw [Block.rv_congr (b.writes_ht (by simp) (by simp))]; simp

/-- The check of WRROW passes exactly for a row of the address map (60_exceptions.md R164). -/
theorem Block.check_wrrow_eq_none (b : Block p) (i : Nat) : b.check (.wrrow i) = none ↔ i < p.n := by
  simp [Block.check]

/-- All that a command word can do: it is refused, with no legal command that passes its checks, or it is such a command
and does its writes (30_encoding.md R87, 60_exceptions.md R164). -/
theorem State.runWord_cases (s : State) (w : CmdWord) :
    (∃ c, s.runWord w = .next (s.withBlk (s.blk.raise c)) ∧ ∀ i, classify w = .legal i → s.blk.check i ≠ none) ∨
      (∃ i, s.runWord w = .next (s.withBlk ((s.blk.writes i).setCode .ok)) ∧ classify w = .legal i ∧
        s.blk.check i = none) := by
  cases hw : classify w with
  | badOpcode => exact .inl ⟨.badOpcode, by simp [State.runWord, hw], by simp⟩
  | badReserved => exact .inl ⟨.badReserved, by simp [State.runWord, hw], by simp⟩
  | legal i =>
    have hrun : s.runWord w = exec i s := by simp [State.runWord, hw]
    obtain ⟨c, hcheck, hexec⟩ | ⟨hcheck, hexec⟩ := exec_cases i s
    · exact .inl ⟨c, hrun.trans hexec, by rintro _ ⟨⟩; simp [hcheck]⟩
    · exact .inr ⟨i, hrun.trans hexec, rfl, hcheck⟩

/-- Where a command word leaves `RV[i]` 1. -/
theorem State.rv_of_runWord {s : State} {w : CmdWord} {b : Block s.params} (h : s.runWord w = .next (s.withBlk b))
    (i : Nat) : b.rv i = true ↔
      (classify w = .legal (.wrrow i) ∧ i < s.params.n) ∨ (s.blk.rv i = true ∧ classify w ≠ .legal .clear) := by
  obtain ⟨c, hrun, hcheck⟩ | ⟨c, hrun, hw, hcheck⟩ := s.runWord_cases w
  · cases hrun.symm.trans h
    have hwrrow : ¬ (classify w = .legal (.wrrow i) ∧ i < s.params.n) :=
      fun ⟨hw, hi⟩ => hcheck _ hw (Block.check_wrrow hi)
    have hclear : classify w ≠ .legal .clear := fun hw => hcheck _ hw rfl
    simp [hwrrow, hclear]
  · cases hrun.symm.trans h
    have hlt : c = .wrrow i → i < s.params.n := by
      rintro rfl
      exact (s.blk.check_wrrow_eq_none i).1 hcheck
    rw [Block.rv_setCode, Block.rv_writes, hw]
    simpa using or_congr_left (iff_self_and.2 hlt)

/-- Settles O27: by the kinds of a step; only the commit of a command word can change a row-valid bit but for reset. -/
theorem rowValidHistory : Obligations.RowValidHistory := by
  intro s t i ht
  obtain ⟨hr, hstep⟩ | ⟨hr, hp, hstep⟩ | ⟨hr, hp, hstep⟩ | ⟨cmd, din, m, hr, hp, hm, hstep⟩ |
    ⟨cmd, din, m, hr, hp, hm, b, hrun, hstep⟩ := step_cases s <;> cases hstep.symm.trans ht
  · simp [hr]
  · simp [hr, hp]
  · simp [hr, hp]
  · have hwait : ¬ m ≤ 1 := by omega
    simp [hr, hp, hwait]
  · exact (State.rv_of_runWord hrun i).trans (by simp [hr, hp, hm])

/-! No command reads an output register (10_state.md R34). -/

/-- The checks depend on the row store alone. -/
theorem Block.check_congr {b c : Block p} (h : b.ht = c.ht) (i : Instr) : b.check i = c.check i := by
  cases i with
  | rdrow a => simp [Block.check, Block.rv_congr h]
  | decode => simp [Block.check, Block.cfgOk_congr h]
  | nop | wrrow | setmode | clear => rfl

/-- Of one register before and after a command, in two runs: it is written alike or kept in both. -/
def WrittenOrKept {α : Type} (x y x' y' : α) : Prop := x' = y' ∨ (x' = x ∧ y' = y)

theorem WrittenOrKept.written {α : Type} {x y x' y' : α} (h : x' = y') : WrittenOrKept x y x' y' := .inl h

theorem WrittenOrKept.kept {α : Type} {x y : α} : WrittenOrKept x y x y := .inr ⟨rfl, rfl⟩

/-- What R34 says of the blocks `b'` and `c'` that one command leaves of `b` and `c`. -/
structure Block.LeftAlike (b c b' c' : Block p) : Prop where
  ht : b'.ht = c'.ht
  mode : b'.mode = c'.mode
  phase : b'.phase = c'.phase
  err : WrittenOrKept b.err c.err b'.err c'.err
  corr : WrittenOrKept b.corr c.corr b'.corr c'.corr
  idx : WrittenOrKept b.idx c.idx b'.idx c'.idx
  dout : WrittenOrKept b.dout c.dout b'.dout c'.dout
  synd : WrittenOrKept b.synd c.synd b'.synd c'.synd

section
variable {b c : Block p} (hht : b.ht = c.ht) (hmode : b.mode = c.mode) (hphase : b.phase = c.phase)
include hht hmode hphase

open WrittenOrKept in
/-- The writes of a command depend on the rows, MODE and the phase alone. -/
theorem Block.writes_leftAlike (i : Instr) : Block.LeftAlike b c (b.writes i) (c.writes i) := by
  have hop := Block.operand_congr hphase
  cases i with
  | nop => exact ⟨hht, hmode, hphase, kept, kept, kept, kept, kept⟩
  | wrrow a => exact ⟨by simp [Block.writes, hht, hop], hmode, hphase, kept, kept, kept, kept, kept⟩
  | rdrow a =>
    have hrow := congrFun (Block.row_congr hht) a
    exact ⟨hht, hmode, hphase, kept, kept, kept, written (congrArg zextRow hrow), kept⟩
  | setmode m => exact ⟨hht, rfl, hphase, kept, kept, kept, kept, kept⟩
  | decode =>
    have hS : b.syndrome b.operand = c.syndrome c.operand := by rw [hop, Block.syndrome_congr hht]
    have hhit : b.flipPosition (b.syndrome b.operand) = c.flipPosition (c.syndrome c.operand) := by
      rw [hS, Block.flipPosition_congr hht hmode]
    exact ⟨hht, hmode, hphase, written (congrArg errFlag hS), written (congrArg corrFlag hhit),
      written (congrArg idxValue hhit), written (congrArg₂ flipAt hop hhit), written hS⟩
  | clear => exact ⟨rfl, rfl, hphase, written rfl, written rfl, written rfl, written rfl, written rfl⟩

end

/-- A command run on two blocks with the same rows, MODE and phase leaves them alike, with the same CODE: both are
refused, with one code, or both do their writes. -/
theorem exec_leftAlike (s : State) (c : Block s.params) (hht : s.blk.ht = c.ht) (hmode : s.blk.mode = c.mode)
    (hphase : s.blk.phase = c.phase) (i : Instr) :
    ∃ b b' : Block s.params, exec i s = .next (s.withBlk b) ∧ exec i (s.withBlk c) = .next (s.withBlk b') ∧
      b.code = b'.code ∧ Block.LeftAlike s.blk c b b' := by
  have hcheck := Block.check_congr hht i
  obtain ⟨e, he, hexec⟩ | ⟨he, hexec⟩ := exec_cases i s
  · exact ⟨_, _, hexec, exec_of_check (s := s.withBlk c) (hcheck.symm.trans he), rfl, hht, hmode, hphase, .kept, .kept,
      .kept, .kept, .kept⟩
  · obtain ⟨ht, mode, phase, err, corr, idx, dout, synd⟩ := Block.writes_leftAlike hht hmode hphase i
    exact ⟨_, _, hexec, exec_of_pass (s := s.withBlk c) (hcheck.symm.trans he), rfl, ht, mode, phase, err, corr, idx,
      dout, synd⟩

/-- Settles O29: the two blocks have the same rows, MODE and phase, which is all that a command reads. -/
theorem outputsNeverRead : Obligations.OutputsNeverRead := by
  intro s i code err corr idx dout synd
  obtain ⟨b, b', hb, hb', hcode, hleft⟩ := exec_leftAlike s
    { s.blk with code := code, err := err, corr := corr, idx := idx, dout := dout, synd := synd } rfl rfl rfl i
  exact ⟨b, b', hb, hb', hleft.ht, hleft.mode, hcode, hleft.phase, hleft.err, hleft.corr, hleft.idx, hleft.dout,
    hleft.synd⟩

/-! The output ports (10_state.md R37, R38) and the reset state (R39). -/

theorem Block.isIdle_iff (b : Block p) : b.isIdle = true ↔ b.phase = .idle := by
  unfold Block.isIdle
  split <;> simp_all

/-- In IDLE every port shows its register or function. -/
theorem State.ports_of_idle {s : State} (h : s.blk.phase = .idle) : s.ports = s.blk.validPorts :=
  if_pos (s.blk.isIdle_iff.2 h)

/-- Outside IDLE the result ports show free values. -/
theorem State.ports_of_not_idle {s : State} (h : s.blk.phase ≠ .idle) : s.ports = invalidPorts s.params s.cycle :=
  if_neg (mt s.blk.isIdle_iff.1 h)

/-- `rsp_valid` is 1 exactly in IDLE. -/
theorem State.resultsReadable_iff (s : State) : s.resultsReadable ↔ s.blk.phase = .idle := by
  by_cases h : s.blk.phase = .idle
  · simp [State.resultsReadable, State.ports_of_idle h, h, Block.validPorts]
  · simp [State.resultsReadable, State.ports_of_not_idle h, h, invalidPorts]

theorem State.cmdReady_eq_rspValid (s : State) : s.ports.cmdReady = s.ports.rspValid := by
  by_cases h : s.blk.phase = .idle
  · simp [State.ports_of_idle h, Block.validPorts]
  · simp [State.ports_of_not_idle h, invalidPorts]

theorem modeBits_eq_one (m : Mode) : modeBits m = 1 ↔ m = .detect := by
  cases m <;> decide

/-- Settles O43: `rsp_valid = 1` means IDLE, and there the ports are `validPorts`, register by register. -/
theorem portsShowRegisters : Obligations.PortsShowRegisters := by
  intro s
  refine ⟨s.resultsReadable_iff, s.cmdReady_eq_rspValid, fun hread => ?_⟩
  rw [State.ports_of_idle (s.resultsReadable_iff.1 hread)]
  exact ⟨rfl, rfl, rfl, rfl, rfl, rfl, modeBits_eq_one _, (BitVec.ofBool_eq_iff_eq (b' := true)).trans s.blk.cfgOk_iff⟩

/-- The reset block meets the invariant: no row is stored and every register is at the reset value. -/
theorem Block.inv_reset (p : Params) : (Block.reset p).Inv :=
  ⟨Memory.wf_nil, by simp, by simp, by simp, rfl, fun _ => rfl⟩

/-- Settles O45: the reset state holds the reset block for all parameters, those of `State.reset` among them (R39, R180). -/
theorem resetMeetsInvariant : Obligations.ResetMeetsInvariant :=
  ⟨Block.inv_reset, Block.inv_reset Config.resetParams⟩

end Sys2Proof.Machine
end

section
/-!
The capability search of the reference construction (10_state.md R40): the sums of binomial coefficients rise to
`2 ^ N`, so the loop ends within its `N + 1` rounds at the first count whose sum exceeds the bound.
-/
namespace Sys2Proof.Machine

theorem binomialSum_zero (n : Nat) : binomialSum n 0 = 1 := by
  simp [binomialSum]

theorem binomialSum_succ (n t : Nat) : binomialSum n (t + 1) = binomialSum n t + n.choose (t + 1) := by
  simp [binomialSum, List.range_succ, Nat.add_assoc]

theorem binomialSum_mono (n : Nat) : Monotone (binomialSum n) :=
  monotone_nat_of_le_succ fun t => by rw [binomialSum_succ]; exact Nat.le_add_right _ _

theorem binomialSum_self (n : Nat) : binomialSum n n = 2 ^ n :=
  Nat.sum_range_choose n

/-- A count that is the first to exceed the bound separates the counts within the bound from the others. -/
theorem binomialSum_le_iff_lt {n bound tc : Nat} (hlow : ∀ t < tc, binomialSum n t ≤ bound)
    (hhigh : bound < binomialSum n tc) (t : Nat) : binomialSum n t ≤ bound ↔ t < tc := by
  refine ⟨fun ht => ?_, hlow t⟩
  by_contra hge
  have := binomialSum_mono n (Nat.le_of_not_lt hge)
  omega

/-- The loop answers the first count that exceeds the bound, if its rounds reach one. -/
theorem binomialSum_le_iff_lt_capabilityLoop {n bound fuel tc : Nat} (hlow : ∀ t < tc, binomialSum n t ≤ bound)
    (hhigh : bound < binomialSum n (tc + fuel)) (t : Nat) :
    binomialSum n t ≤ bound ↔ t < capabilityLoop n bound fuel tc := by
  induction fuel generalizing tc with
  | zero => exact binomialSum_le_iff_lt hlow hhigh t
  | succ fuel ih =>
    unfold capabilityLoop
    split
    · next hle =>
      refine ih (fun u hu => ?_) (by rwa [Nat.add_right_comm, Nat.add_assoc])
      obtain hlt | rfl := Nat.lt_succ_iff_lt_or_eq.1 hu
      · exact hlow u hlt
      · exact hle
    · next hgt => exact binomialSum_le_iff_lt hlow (Nat.lt_of_not_le hgt) t

/-- `N + 1` rounds are enough: the sum is `2 ^ N` at `N`, and `R < N`. -/
theorem bound_lt_binomialSum (p : Params) : 2 ^ p.r < binomialSum p.n (p.n + 1) := by
  have hr : p.r < p.n := Nat.sub_lt (Nat.lt_of_lt_of_le Nat.two_pos p.two_le_n) p.one_le_k
  calc 2 ^ p.r < 2 ^ p.n := Nat.pow_lt_pow_right Nat.one_lt_two hr
    _ = binomialSum p.n p.n := (binomialSum_self p.n).symm
    _ ≤ binomialSum p.n (p.n + 1) := binomialSum_mono p.n (Nat.le_succ p.n)

/-- Settles O46: `tc` is one less than the loop's count, which is positive since `C(N, 0) = 1` is within the bound. -/
theorem capabilityIsLargest : Obligations.CapabilityIsLargest := by
  intro p
  have hloop := binomialSum_le_iff_lt_capabilityLoop (n := p.n) (bound := 2 ^ p.r) (fuel := p.n + 1) (tc := 0)
    (by simp) (by simpa using bound_lt_binomialSum p)
  have hpos := (hloop 0).1 (by rw [binomialSum_zero]; exact Nat.one_le_two_pow)
  refine ⟨fun t => (hloop t).trans ?_, rfl⟩
  rw [referenceTc]
  omega

end Sys2Proof.Machine
end

section
/-!
The codewords of the code of a matrix `P` (10_state.md R43 to R45): the syndrome under the rows `[P; I]` is the parity of
the source word, which the rows of `P` give, plus the parity bits, which the unit vectors give.
-/
namespace Sys2Proof.Machine

variable {p : Params} {w : Nat}

/-! The stored rows of `[P; I]` (R43). -/

/-- The row of index `i` below K is row `i` of `P`. -/
theorem Block.row_systematic_lt {b : Block p} {P : List (Vec p.r)} (hb : b.ht = rowsFrom 0 (systematicRows p P))
    (hP : P.length = p.k) {i : Nat} (hi : i < p.k) : b.row i = P.getD i 0 := by
  have hlen : i < P.length := hP ▸ hi
  simp [Block.row, hb, Memory.read_rowsFrom, systematicRows, List.getElem?_append_left hlen, hlen]

/-- The row of index `K + j` is `1 << j`. -/
theorem Block.row_systematic_add {b : Block p} {P : List (Vec p.r)} (hb : b.ht = rowsFrom 0 (systematicRows p P))
    (hP : P.length = p.k) {j : Nat} (hj : j < p.r) : b.row (p.k + j) = Vec.single p.r j := by
  have hrow : (systematicRows p P)[p.k + j]? = some (Vec.single p.r j) := by
    simp [systematicRows, identityRows, ← hP, hj]
  simp [Block.row, hb, Memory.read_rowsFrom, hrow]

/-! The codeword of a source word (R44): U in the bits below K, the parity bits above. -/

theorem encodeWord_getLsbD_lt (P : List (Vec p.r)) (U : Vec p.k) {i : Nat} (hi : i < p.k) :
    (encodeWord P U).getLsbD i = U.getLsbD i := by
  have hn : i < p.n := hi.trans p.k_lt_n
  simp [encodeWord, hi, hn]

theorem encodeWord_getLsbD_add (P : List (Vec p.r)) (U : Vec p.k) {j : Nat} (hj : j < p.r) :
    (encodeWord P U).getLsbD (p.k + j) = (parityOf P U).getLsbD j := by
  have hn : p.k + j < p.n := by have := p.k_lt_n; unfold Params.r at hj; omega
  simp [encodeWord, hn]

/-- A sum over GF(2) in which one position alone counts is that position's term. -/
theorem foldr_xor_and_decide_eq (f : Nat → Bool) (j : Nat) {l : List Nat} (hl : l.Nodup) :
    (l.map fun m => f m && decide (j = m)).foldr xor false = (decide (j ∈ l) && f j) := by
  induction l with
  | nil => rfl
  | cons a l ih =>
    obtain ⟨ha, hl⟩ := List.nodup_cons.1 hl
    rw [List.map_cons, List.foldr_cons, ih hl]
    by_cases h : j = a
    · subst h; simp [ha]
    · simp [h]

/-- The positions are those of the source word and, above them, those of the parity bits. -/
theorem range_n_eq (p : Params) : List.range p.n = List.range p.k ++ (List.range p.r).map (p.k + ·) := by
  rw [← List.range_add, Params.r, Nat.add_sub_cancel' p.k_lt_n.le]

/-- Settles O47: over the positions below K the syndrome's loop gathers the parity of `U`, and over the others, whose
rows are the unit vectors, it adds the same parity bit by bit. -/
theorem codewordsHaveZeroSyndrome : Obligations.CodewordsHaveZeroSyndrome := by
  intro p b P U hP hb
  have hsource : (List.range p.k).foldl (fun S i => if (encodeWord P U).getLsbD i then S ^^^ b.row i else S) 0 =
      parityOf P U := by
    refine List.foldl_ext _ _ _ fun S i hi => ?_
    have hi := List.mem_range.1 hi
    rw [encodeWord_getLsbD_lt P U hi, Block.row_systematic_lt hb hP hi]
  apply BitVec.eq_of_getLsbD_eq
  intro j hj
  have hparity : ((List.range p.r).map fun m => (encodeWord P U).getLsbD (p.k + m) && (b.row (p.k + m)).getLsbD j) =
      (List.range p.r).map fun m => (parityOf P U).getLsbD m && decide (j = m) := by
    refine List.map_congr_left fun m hm => ?_
    have hm := List.mem_range.1 hm
    rw [encodeWord_getLsbD_add P U hm, Block.row_systematic_add hb hP hm, getLsbD_single]
    simp [hj]
  rw [Block.syndrome, range_n_eq, List.foldl_append, hsource, Block.syndromeLoop_getLsbD, List.map_map]
  simp only [Function.comp_def]
  rw [hparity, foldr_xor_and_decide_eq _ _ List.nodup_range]
  simp [hj]

end Sys2Proof.Machine
end

section
/-!
The rows of the reference matrix (10_state.md R41 to R43, R48). Each row is the row of a rising list of columns, and a
rising list of columns below R is fixed by its row; so what R48 says of the rows is a fact about the lists.
-/
namespace Sys2Proof.Machine

variable {p : Params} {w : Nat}

/-! A row by its columns (R41, R42). -/

/-- The row of a list of columns has exactly those columns set. -/
theorem rowOfColumns_getLsbD (cols : List Nat) (j : Nat) :
    (rowOfColumns cols : Vec w).getLsbD j = (decide (j < w) && decide (j ∈ cols)) := by
  suffices h : ∀ v : Vec w, (cols.foldl (fun v c => v ||| Vec.single w c) v).getLsbD j =
      (v.getLsbD j || (decide (j < w) && decide (j ∈ cols))) by simp [rowOfColumns, h]
  induction cols with
  | nil => simp
  | cons c cols ih =>
    intro v
    rw [List.foldl_cons, ih, BitVec.getLsbD_or, getLsbD_single]
    by_cases hc : j = c
    · subst hc
      by_cases hw : j < w <;> simp [hw]
    · simp [hc]

/-- The identity's row `j` is the row of the one column `j` (R43). -/
theorem rowOfColumns_singleton (j : Nat) : (rowOfColumns [j] : Vec w) = Vec.single w j := by
  simp [rowOfColumns]

/-- The row of no column is zero. -/
theorem rowOfColumns_nil : (rowOfColumns [] : Vec w) = 0 := rfl

/-- Rising lists of columns below `w` that give the same row are the same list. -/
theorem rowOfColumns_injOn {c d : List Nat} (hc : c.Sublist (List.range w)) (hd : d.Sublist (List.range w))
    (h : (rowOfColumns c : Vec w) = rowOfColumns d) : c = d := by
  have hrise : ∀ {e : List Nat}, e.Sublist (List.range w) → e.Pairwise (· < ·) :=
    fun he => List.pairwise_lt_range.sublist he
  have hlt : ∀ {e : List Nat}, e.Sublist (List.range w) → ∀ j ∈ e, j < w :=
    fun he j hj => List.mem_range.1 (he.subset hj)
  refine (hrise hc).eq_of_mem_iff (hrise hd) fun j => ?_
  by_cases hj : j < w
  · have hbit := congrArg (BitVec.getLsbD · j) h
    simp only [rowOfColumns_getLsbD, hj, decide_true, Bool.true_and, decide_eq_decide] at hbit
    exact hbit
  · exact iff_of_false (mt (hlt hc j) hj) (mt (hlt hd j) hj)

/-! The selections of columns (R41). -/

/-- The selections are the library's sublists of one length, in another order. -/
theorem combinations_perm_sublistsLen (m : Nat) (l : List Nat) : (combinations m l).Perm (List.sublistsLen m l) := by
  fun_induction combinations m l with
  | case1 l => simp
  | case2 m => simp
  | case3 m c cs ih₁ ih₂ =>
    rw [List.sublistsLen_succ_cons]
    exact ((ih₁.map _).append ih₂).trans List.perm_append_comm

theorem mem_combinations {m : Nat} {l c : List Nat} : c ∈ combinations m l ↔ c.Sublist l ∧ c.length = m := by
  rw [(combinations_perm_sublistsLen m l).mem_iff, List.mem_sublistsLen]

theorem nodup_combinations (m : Nat) {l : List Nat} (h : l.Nodup) : (combinations m l).Nodup :=
  (combinations_perm_sublistsLen m l).nodup_iff.2 (List.nodup_sublistsLen m h)

/-- The columns of the candidate rows, in the order of `candidateRows`. -/
def candidateColumns (p : Params) : List (List Nat) :=
  (List.range' (referenceDmin p - 1) (p.r + 1 - (referenceDmin p - 1))).flatMap fun m => combinations m (List.range p.r)

theorem candidateRows_eq (p : Params) : candidateRows p = (candidateColumns p).map rowOfColumns := by
  rw [candidateRows, candidateColumns, List.map_flatMap]

/-- A candidate selects at least `dmin - 1` of the R columns. -/
theorem of_mem_candidateColumns {c : List Nat} (h : c ∈ candidateColumns p) :
    c.Sublist (List.range p.r) ∧ referenceDmin p - 1 ≤ c.length := by
  obtain ⟨m, hm, hc⟩ := List.mem_flatMap.1 h
  obtain ⟨hsub, rfl⟩ := mem_combinations.1 hc
  exact ⟨hsub, (List.mem_range'_1.1 hm).1⟩

/-- No candidate is repeated: those of one weight are distinct, and those of two weights differ in length. -/
theorem nodup_candidateColumns (p : Params) : (candidateColumns p).Nodup := by
  refine List.nodup_flatMap.2 ⟨fun m _ => nodup_combinations m List.nodup_range, ?_⟩
  refine List.Pairwise.imp (fun hne c hc hc' => hne ?_) List.nodup_range'
  exact (mem_combinations.1 hc).2.symm.trans (mem_combinations.1 hc').2

/-- The columns of the rows of `[P; I]` for the reference `P`. -/
def referenceColumns (p : Params) : List (List Nat) :=
  (candidateColumns p).take p.k ++ (List.range p.r).map ([·])

/-- Where the reference construction succeeds, its rows are those of `referenceColumns`, and N in number. -/
theorem of_referenceRows_eq_some {rows : List (Vec p.r)} (h : referenceRows p = some rows) :
    rows = (referenceColumns p).map rowOfColumns ∧ rows.length = p.n := by
  obtain ⟨P, hP, rfl⟩ := Option.map_eq_some_iff.1 h
  obtain ⟨hlen, rfl⟩ := Option.ite_some_none_eq_some.1 hP
  constructor
  · simp [referenceColumns, systematicRows, identityRows, candidateRows_eq, rowOfColumns_singleton, Function.comp_def]
  · rw [systematicRows, List.length_append, hlen, identityRows, List.length_map, List.length_range, Params.r,
      Nat.add_sub_cancel' p.k_lt_n.le]

/-- With `dmin` at least 3 a row of the reference matrix has one column or more: the candidates have two or more, the
rows of the identity have one. -/
theorem of_mem_referenceColumns (hd : 3 ≤ referenceDmin p) {c : List Nat} (h : c ∈ referenceColumns p) :
    c.Sublist (List.range p.r) ∧ c ≠ [] := by
  obtain hc | hc := List.mem_append.1 h
  · obtain ⟨hsub, hlen⟩ := of_mem_candidateColumns (List.mem_of_mem_take hc)
    exact ⟨hsub, List.ne_nil_of_length_pos (by omega)⟩
  · obtain ⟨j, hj, rfl⟩ := List.mem_map.1 hc
    exact ⟨List.singleton_sublist.2 hj, List.cons_ne_nil _ _⟩

/-- With `dmin` at least 3 no row is repeated: a candidate has two columns or more, a row of the identity has one. -/
theorem nodup_referenceColumns (hd : 3 ≤ referenceDmin p) : (referenceColumns p).Nodup := by
  refine List.Nodup.append ((nodup_candidateColumns p).sublist (List.take_sublist _ _))
    (List.nodup_range.map fun _ _ h => List.singleton_inj.1 h) fun c hc hc' => ?_
  obtain ⟨-, hlen⟩ := of_mem_candidateColumns (List.mem_of_mem_take hc)
  obtain ⟨j, -, rfl⟩ := List.mem_map.1 hc'
  simp only [List.length_singleton] at hlen
  omega

/-- A list of N distinct rows, none of them zero, meets the premise of 41_decode.md R129. -/
theorem rowsDistinct_of_nodup {n : Nat} {rows : List (Vec w)} (hlen : rows.length = n) (hnodup : rows.Nodup)
    (hzero : 0 ∉ rows) : rowsDistinct n fun i => rows.getD i 0 := by
  subst hlen
  refine ⟨fun i hi h0 => hzero ?_, fun i hi j hj hij => ?_⟩
  · replace h0 : rows.getD i 0 = 0 := h0
    rw [← h0, List.getD_eq_getElem _ _ hi]
    exact List.getElem_mem hi
  · simp only [List.getD_eq_getElem _ _ hi, List.getD_eq_getElem _ _ hj] at hij
    exact (hnodup.getElem_inj_iff).1 hij

/-- With `dmin` at least 3 the reference rows meet the premise of 41_decode.md R129 (R48). -/
theorem rowsDistinct_reference {rows : List (Vec p.r)} (h : referenceRows p = some rows) (hd : 3 ≤ referenceDmin p) :
    rowsDistinct p.n fun i => rows.getD i 0 := by
  obtain ⟨rfl, hlen⟩ := of_referenceRows_eq_some h
  refine rowsDistinct_of_nodup hlen ?_ ?_
  · refine (nodup_referenceColumns hd).map_on fun c hc d hd' hcd => ?_
    exact rowOfColumns_injOn (of_mem_referenceColumns hd hc).1 (of_mem_referenceColumns hd hd').1 hcd
  · intro hmem
    obtain ⟨c, hc, h0⟩ := List.mem_map.1 hmem
    obtain ⟨hsub, hne⟩ := of_mem_referenceColumns hd hc
    exact hne (rowOfColumns_injOn hsub (List.nil_sublist _) (h0.trans rowOfColumns_nil.symm))

/-- With `dmin` 1 the enumeration starts at weight 0, whose one candidate has no column. -/
theorem head_candidateColumns (hd : referenceDmin p = 1) : ∃ rest, candidateColumns p = [] :: rest := by
  rw [candidateColumns, hd, Nat.sub_self, Nat.sub_zero, List.range'_succ, List.flatMap_cons, combinations]
  exact ⟨_, rfl⟩

/-- With `dmin` 1 the first row is zero. -/
theorem getD_zero_reference {rows : List (Vec p.r)} (h : referenceRows p = some rows) (hd : referenceDmin p = 1) :
    rows.getD 0 0 = 0 := by
  obtain ⟨rfl, -⟩ := of_referenceRows_eq_some h
  obtain ⟨rest, hrest⟩ := head_candidateColumns hd
  obtain ⟨k, hk⟩ := Nat.exists_eq_add_of_le' p.one_le_k
  rw [referenceColumns, hrest, hk]
  rfl

/-- The rows for N = 5 and K = 3 (R48, 95_test_vectors.md section 2.3). -/
theorem referenceRows_five_three (hn : p.n = 5) (hk : p.k = 3) :
    (referenceRows p).map (List.map BitVec.toNat) = some [0, 1, 2, 1, 2] := by
  obtain ⟨n, k, h2, hmax, h1, hlt⟩ := p
  obtain rfl : n = 5 := hn
  obtain rfl : k = 3 := hk
  decide +revert

/-- Settles O49: the rows are those of distinct non-empty selections of columns when `dmin` is at least 3, and the
empty selection comes first when `dmin` is 1. -/
theorem referenceRowsDistinct : Obligations.ReferenceRowsDistinct := by
  intro p rows h
  refine ⟨(of_referenceRows_eq_some h).2, rowsDistinct_reference h, fun hd => ?_, fun hn hk => ?_⟩
  · have hfirst := getD_zero_reference h hd
    exact ⟨hfirst, fun hdistinct => hdistinct.1 0 (by have := p.two_le_n; omega) hfirst⟩
  · simpa [h] using referenceRows_five_three hn hk

end Sys2Proof.Machine
end

section
/-!
The row store (spec/20_memory.md): the data laws of the list that holds it, the index check, and the invariant that every
step keeps.
-/
namespace Sys2Proof.Machine

variable {w : Nat} {p : Params}

/-! A write of a row (R69, R72), by where its index stands to the first listed one. -/

theorem Memory.write_cons_of_lt {a i : Nat} (h : i < a) (u v : Vec w) (rest : Memory w) :
    Memory.write ((a, u) :: rest) i v = (i, v) :: (a, u) :: rest :=
  if_pos h

theorem Memory.write_cons_self (i : Nat) (u v : Vec w) (rest : Memory w) :
    Memory.write ((i, u) :: rest) i v = (i, v) :: rest := by
  simp [Memory.write]

theorem Memory.write_cons_of_gt {a i : Nat} (h : a < i) (u v : Vec w) (rest : Memory w) :
    Memory.write ((a, u) :: rest) i v = (a, u) :: rest.write i v :=
  (if_neg h.not_gt).trans (if_neg h.ne')

/-- Settles O5: by induction on the list, as a write passes the rows of lower indices. -/
theorem rowReadAfterWrite : Obligations.RowReadAfterWrite := by
  intro w rows i j v
  induction rows with
  | nil => simp [Memory.write, Memory.read_cons, eq_comm]
  | cons c rest ih =>
    obtain ⟨a, u⟩ := c
    obtain hlt | rfl | hgt := lt_trichotomy i a
    · rw [Memory.write_cons_of_lt hlt, Memory.read_cons]
      exact if_congr eq_comm rfl rfl
    · rw [Memory.write_cons_self, Memory.read_cons, Memory.read_cons]
      by_cases hij : i = j
      · simp [hij]
      · simp [hij, Ne.symm hij]
    · rw [Memory.write_cons_of_gt hgt, Memory.read_cons, Memory.read_cons, ih]
      by_cases haj : a = j
      · subst haj; simp [hgt.ne]
      · simp [haj]

/-- Settles O6: by induction on the list; where the first write put the entry, the second finds it first. -/
theorem rowWriteIdempotent : Obligations.RowWriteIdempotent := by
  intro w rows i v
  induction rows with
  | nil => exact Memory.write_cons_self i v v []
  | cons c rest ih =>
    obtain ⟨a, u⟩ := c
    obtain hlt | rfl | hgt := lt_trichotomy i a
    · rw [Memory.write_cons_of_lt hlt, Memory.write_cons_self]
    · rw [Memory.write_cons_self, Memory.write_cons_self]
    · rw [Memory.write_cons_of_gt hgt, Memory.write_cons_of_gt hgt, ih]

/-! The canonical form (R60; log entry 5). -/

/-- In rising order an index is listed at most once, so the row it reads as is the one it is listed with. -/
theorem Memory.read_eq_some_iff_mem {rows : Memory w} (h : (rows.map Prod.fst).Pairwise (· < ·)) (i : Nat) (v : Vec w) :
    rows.read i = some v ↔ (i, v) ∈ rows := by
  induction rows with
  | nil => simp
  | cons c rest ih =>
    obtain ⟨a, u⟩ := c
    obtain ⟨hfirst, hrest⟩ := List.pairwise_cons.1 h
    rw [Memory.read_cons, List.mem_cons, Prod.mk.injEq, ← ih hrest]
    split_ifs with hai
    · subst hai
      have hnot : Memory.read rest a ≠ some v := fun hread =>
        absurd (hfirst a ((Memory.isSome_read rest a).1 (by simp [hread]))) (lt_irrefl a)
      simp [hnot, eq_comm]
    · simp [Ne.symm hai]

/-- Settles O7: the two lists have the same entries, and a list in rising order is determined by its entries. -/
theorem canonicalStoresEqual : Obligations.CanonicalStoresEqual := by
  rintro w n a b ⟨ha, -⟩ ⟨hb, -⟩ hread
  have hmem (c : Nat × Vec w) : c ∈ a ↔ c ∈ b := by
    rw [← Memory.read_eq_some_iff_mem ha, ← Memory.read_eq_some_iff_mem hb, hread]
  have hrising {rows : Memory w} (h : (rows.map Prod.fst).Pairwise (· < ·)) :
      rows.Pairwise (Prod.fst ⁻¹'o (· < ·)) := List.pairwise_map (f := Prod.fst).1 h
  exact (hrising ha).eq_of_mem_iff (hrising hb) hmem

/-! An index outside the address map (R66). -/

/-- Settles O11: the index check fails, and a failed check changes CODE alone; an index of a command word is below
65536. -/
theorem indexOutOfRangeIsBadIndex : Obligations.IndexOutOfRangeIsBadIndex := by
  intro s i
  refine ⟨fun h => ⟨exec_of_check (Block.check_wrrow_bad h), exec_of_check (Block.check_rdrow_bad h)⟩, fun hn hi => ?_⟩
  rw [hn]
  exact of_decide_eq_true hi

/-! The invariant: what it says of the registers, whatever the phase, and what each kind of step makes of the phase. -/

/-- The part of `Block.Inv` that the phase has no part in: the row store (R60) and the result registers (10_state.md R29
to R33). -/
structure Block.RegistersInv (b : Block p) : Prop where
  ht : b.ht.wf p.n
  err : b.err = (b.synd != 0)
  corr_set : b.corr = true → b.err = true ∧ b.idx.toNat < p.n
  corr_clear : b.corr = false → b.idx = 0

theorem Block.Inv.registers {b : Block p} (h : b.Inv) : b.RegistersInv := by
  obtain ⟨ht, err, corr_set, corr_clear, -, -⟩ := h
  exact ⟨ht, err, corr_set, corr_clear⟩

/-- Outside RESET the invariant asks of the phase only that BUSY has an edge left. -/
theorem Block.RegistersInv.setPhase {b : Block p} (h : b.RegistersInv) {ph : Phase p} (hwf : ph.wf = true)
    (hph : ph ≠ .reset) : (b.setPhase ph).Inv :=
  ⟨h.ht, h.err, h.corr_set, h.corr_clear, hwf, fun hreset => absurd hreset hph⟩

/-- CODE is no part of the invariant. -/
theorem Block.RegistersInv.setCode {b : Block p} (h : b.RegistersInv) (c : ResultCode) : (b.setCode c).RegistersInv :=
  ⟨h.ht, h.err, h.corr_set, h.corr_clear⟩

/-- IDX holds a bit position without loss: N is at most 65536 (10_state.md R31). -/
theorem idxValue_toNat {q : Nat} (hq : q < p.n) : (idxValue (some q)).toNat = q := by
  have hmax := p.n_le_65536
  simp only [idxValue, BitVec.toNat_ofNat]
  omega

/-- The results of a DECODE agree with each other: a flipped position is a bit position, and one is flipped only for a
non-zero syndrome (41_decode.md R120 to R125). -/
theorem Block.RegistersInv.decodeWord {b : Block p} (h : b.RegistersInv) (r : Vec p.n) :
    (b.decodeWord r).RegistersInv where
  ht := h.ht
  err := rfl
  corr_set hcorr := by
    obtain ⟨q, hq⟩ : ∃ q, b.flipPosition (b.syndrome r) = some q := Option.isSome_iff_exists.1 hcorr
    have hlt := Block.flipPosition_lt hq
    have hS : b.syndrome r ≠ 0 := fun hzero => by
      rw [hzero, b.flipPosition_zero] at hq
      cases hq
    exact ⟨bne_iff_ne.2 hS, by simpa [Block.decodeWord, hq, idxValue_toNat hlt] using hlt⟩
  corr_clear hcorr := congrArg idxValue (Option.not_isSome_iff_eq_none.1 (Bool.eq_false_iff.1 hcorr))

/-- The writes of a command that passes its checks keep the row store canonical and the result registers consistent. -/
theorem Block.RegistersInv.writes {b : Block p} (h : b.RegistersInv) {i : Instr} (hcheck : b.check i = none) :
    (b.writes i).RegistersInv := by
  cases i with
  | wrrow a =>
    have ha := (b.check_wrrow_eq_none a).1 hcheck
    exact ⟨Memory.wf_write h.ht ha _, h.err, h.corr_set, h.corr_clear⟩
  | decode => exact h.decodeWord b.operand
  | clear => exact ⟨Memory.wf_nil, by simp [Block.writes], by simp [Block.writes], fun _ => rfl⟩
  | nop | rdrow | setmode => exact ⟨h.ht, h.err, h.corr_set, h.corr_clear⟩

/-- A command word, refused or run, keeps the registers' part of the invariant. -/
theorem Block.RegistersInv.of_runWord {s : State} {cmd : CmdWord} {b : Block s.params} (h : s.blk.RegistersInv)
    (hrun : s.runWord cmd = .next (s.withBlk b)) : b.RegistersInv := by
  obtain ⟨c, hcase, -⟩ | ⟨i, hcase, -, hcheck⟩ := s.runWord_cases cmd
  · cases hcase.symm.trans hrun
    exact h.setCode c
  · cases hcase.symm.trans hrun
    exact (h.writes hcheck).setCode .ok

/-- An accepted command has at least one edge to its commit, since LAT is at least 1 (00_scope.md R8). -/
theorem Block.Inv.afterOffer {b : Block p} (h : b.Inv) (e : Edge p) : (b.afterOffer e).Inv := by
  unfold Block.afterOffer
  split
  · exact h.registers.setPhase (by simp [Phase.wf, Edge.latency]) (by simp)
  · exact h

/-- Settles O44: by the kinds of a step; a reset edge leaves the reset block, the commit keeps what the invariant says of
the registers, and every other edge changes the phase alone. -/
theorem stepKeepsInvariant : Obligations.StepKeepsInvariant := by
  intro s t h ht
  obtain ⟨-, hstep⟩ | ⟨-, -, hstep⟩ | ⟨-, -, hstep⟩ | ⟨cmd, din, m, -, -, hm, hstep⟩ |
    ⟨cmd, din, m, -, -, -, b, hrun, hstep⟩ := step_cases s <;> cases hstep.symm.trans ht
  · exact Block.inv_reset s.params
  · exact h.registers.setPhase rfl (by simp)
  · exact Block.Inv.afterOffer h s.edgeNow
  · have hleft : 1 ≤ m - 1 := by omega
    exact h.registers.setPhase (by simpa [Phase.wf] using hleft) (by simp)
  · exact (h.registers.of_runWord hrun).setPhase rfl (by simp)

end Sys2Proof.Machine
end

section
/-!
The encoding of commands (spec/30_encoding.md): the round trips between commands and words, and the words that are no
legal command.
-/
namespace Sys2Proof

/-! The fields of a word put together from OPC and ARG (R80 to R83). -/

@[simp] theorem opcOf_cmdWord (opc : BitVec 4) (arg : BitVec 16) : opcOf (cmdWord opc arg) = opc := by
  apply BitVec.eq_of_toNat_eq
  rw [opcOf_toNat, cmdWord_toNat]
  omega

@[simp] theorem rsvOf_cmdWord (opc : BitVec 4) (arg : BitVec 16) : rsvOf (cmdWord opc arg) = 0 := by
  apply BitVec.eq_of_toNat_eq
  rw [rsvOf_toNat, cmdWord_toNat]
  exact Nat.mod_eq_zero_of_dvd (by omega)

@[simp] theorem argOf_cmdWord (opc : BitVec 4) (arg : BitVec 16) : argOf (cmdWord opc arg) = arg := by
  apply BitVec.eq_of_toNat_eq
  rw [argOf_toNat, cmdWord_toNat]
  omega

/-- A word with RSV zero is determined by OPC and ARG. -/
theorem cmdWord_opcOf_argOf {w : CmdWord} (h : rsvOf w = 0) : cmdWord (opcOf w) (argOf w) = w := by
  apply BitVec.eq_of_toNat_eq
  have hrsv : w.toNat / 2 ^ 16 % 2 ^ 12 = 0 := by rw [← rsvOf_toNat, h]; rfl
  rw [cmdWord_toNat, opcOf_toNat, argOf_toNat]
  omega

/-! The classes of the words with RSV zero, one per defined OPC (R86). -/

theorem classify_cmdWord_nop (arg : BitVec 16) :
    classify (cmdWord 0#4 arg) = if arg ≠ 0 then .badReserved else .legal .nop := by
  simp [classify]

@[simp] theorem classify_cmdWord_wrrow (arg : BitVec 16) : classify (cmdWord 1#4 arg) = .legal (.wrrow arg.toNat) := by
  simp [classify]

@[simp] theorem classify_cmdWord_rdrow (arg : BitVec 16) : classify (cmdWord 2#4 arg) = .legal (.rdrow arg.toNat) := by
  simp [classify]

theorem classify_cmdWord_setmode (arg : BitVec 16) : classify (cmdWord 3#4 arg) =
    if arg.extractLsb' 1 15 ≠ 0 then .badReserved else .legal (.setmode (modeOfBit (arg.getLsbD 0))) := by
  simp [classify]

theorem classify_cmdWord_decode (arg : BitVec 16) :
    classify (cmdWord 4#4 arg) = if arg ≠ 0 then .badReserved else .legal .decode := by
  simp [classify]

theorem classify_cmdWord_clear (arg : BitVec 16) :
    classify (cmdWord 5#4 arg) = if arg ≠ 0 then .badReserved else .legal .clear := by
  simp [classify]

/-! The round trips (R85, R86). -/

/-- Settles O1: each field of the encoding reads back as it was put in; an index of a command that fits is below 65536. -/
theorem classifyOfEncode : Obligations.ClassifyOfEncode := by
  intro i hwf
  cases i with
  | nop | decode | clear => rfl
  | setmode m => cases m <;> rfl
  | wrrow a | rdrow a =>
    have ha : a < 65536 := of_decide_eq_true hwf
    simp [encode, Nat.mod_eq_of_lt ha]

/-- Settles O4: each word is the encoding of its command. -/
theorem tableWordsClassified : Obligations.TableWordsClassified :=
  ⟨classifyOfEncode .nop rfl, classifyOfEncode (.wrrow 13) rfl, classifyOfEncode (.wrrow 65535) rfl,
    classifyOfEncode (.rdrow 3) rfl, classifyOfEncode (.setmode .correct) rfl, classifyOfEncode (.setmode .detect) rfl,
    classifyOfEncode .decode rfl, classifyOfEncode .clear rfl⟩

theorem bit_modeOfBit (m : Bool) : (modeOfBit m).bit = m := by
  cases m <;> rfl

/-- The ARG of a legal SETMODE, whose bits 15:1 are zero, is its MODE bit (R82, R83). -/
theorem ofNat_getLsbD_zero {arg : BitVec 16} (h : arg.extractLsb' 1 15 = 0) :
    BitVec.ofNat 16 (arg.getLsbD 0).toNat = arg := by
  have hupper : arg.toNat / 2 % 2 ^ 15 = 0 := by
    simpa [Nat.shiftRight_eq_div_pow] using congrArg BitVec.toNat h
  have hbit : (arg.getLsbD 0).toNat = arg.toNat % 2 := by
    rw [BitVec.getLsbD, Nat.toNat_testBit, pow_zero, Nat.div_one]
  apply BitVec.eq_of_toNat_eq
  rw [hbit, BitVec.toNat_ofNat]
  omega

/-- A legal word has a defined OPC and RSV zero, so it is put together from OPC and ARG. -/
theorem exists_cmdWord_of_legal {w : CmdWord} {i : Instr} (h : classify w = .legal i) :
    ∃ n < 6, ∃ arg, w = cmdWord (BitVec.ofNat 4 n) arg := by
  unfold classify at h
  by_cases hopc : 6 ≤ (opcOf w).toNat
  · rw [if_pos hopc] at h
    cases h
  by_cases hrsv : rsvOf w ≠ 0
  · rw [if_neg hopc, if_pos hrsv] at h
    cases h
  refine ⟨(opcOf w).toNat, Nat.lt_of_not_le hopc, argOf w, ?_⟩
  rw [BitVec.ofNat_toNat, BitVec.setWidth_eq, cmdWord_opcOf_argOf (not_not.1 hrsv)]

/-- Settles O2: by the operand of the word's OPC; ARG is the index of WRROW and RDROW, the MODE bit of SETMODE, and zero for the
other commands. -/
theorem encodeOfClassify : Obligations.EncodeOfClassify := by
  intro w i h
  obtain ⟨n, hn, arg, rfl⟩ := exists_cmdWord_of_legal h
  obtain hindex | rfl | hnone : (n = 1 ∨ n = 2) ∨ n = 3 ∨ (n = 0 ∨ n = 4 ∨ n = 5) := by omega
  · obtain rfl | rfl := hindex
    all_goals
      simp only [classify_cmdWord_wrrow, classify_cmdWord_rdrow] at h
      cases h
      simp [Instr.wellFormed, encode, arg.isLt]
  · rw [classify_cmdWord_setmode] at h
    split_ifs at h with hupper
    cases h
    refine ⟨rfl, ?_⟩
    rw [encode, bit_modeOfBit, ofNat_getLsbD_zero (not_not.1 hupper)]
    rfl
  · obtain rfl | rfl | rfl := hnone
    all_goals
      simp only [classify_cmdWord_nop, classify_cmdWord_decode, classify_cmdWord_clear] at h
      split_ifs at h with harg
      cases h
      obtain rfl := not_not.1 harg
      exact ⟨rfl, rfl⟩

/-! The words that are no legal command (R82, R86, R87). -/

/-- A reserved bit of the word's OPC is set: of RSV, of the ARG of a command without operand, or of bits 15:1 of
a SETMODE. -/
def HasReservedBit (w : CmdWord) : Prop :=
  w.toNat / 2 ^ 16 % 2 ^ 12 ≠ 0 ∨ (w.toNat / 2 ^ 28 ∈ [0, 4, 5] ∧ w.toNat % 2 ^ 16 ≠ 0) ∨
    (w.toNat / 2 ^ 28 = 3 ∧ w.toNat % 2 ^ 16 / 2 ≠ 0)

theorem classify_of_opc_ge {w : CmdWord} (h : 6 ≤ w.toNat / 2 ^ 28) : classify w = .badOpcode := by
  rw [classify_eq, if_pos h]

theorem classify_of_hasReservedBit {w : CmdWord} (hopc : w.toNat / 2 ^ 28 < 6) (h : HasReservedBit w) :
    classify w = .badReserved := by
  rw [classify_eq, if_neg hopc.not_ge]
  by_cases hrsv : w.toNat / 2 ^ 16 % 2 ^ 12 ≠ 0
  · exact if_pos hrsv
  rw [if_neg hrsv]
  obtain hrsv' | ⟨hmem, harg⟩ | ⟨hthree, hmode⟩ := h
  · exact absurd hrsv' hrsv
  · simp only [List.mem_cons, List.not_mem_nil, or_false] at hmem
    obtain h | h | h := hmem <;> rw [h] <;> exact if_pos harg
  · rw [hthree]
    exact if_pos hmode

theorem classify_of_not_hasReservedBit {w : CmdWord} (hopc : w.toNat / 2 ^ 28 < 6) (h : ¬ HasReservedBit w) :
    ∃ i, classify w = .legal i := by
  simp only [HasReservedBit, not_or, not_and] at h
  obtain ⟨hrsv, harg, hmode⟩ := h
  rw [classify_eq, if_neg hopc.not_ge, if_neg hrsv]
  generalize w.toNat / 2 ^ 28 = opc at hopc harg hmode ⊢
  obtain hindex | rfl | hnone : (opc = 1 ∨ opc = 2) ∨ opc = 3 ∨ (opc = 0 ∨ opc = 4 ∨ opc = 5) := by omega
  · obtain rfl | rfl := hindex <;> exact ⟨_, rfl⟩
  · exact ⟨_, if_neg (hmode rfl)⟩
  · obtain rfl | rfl | rfl := hnone <;> exact ⟨_, if_neg (harg (by simp))⟩

/-- Settles O3: the OPC and the reserved bits decide the class of a word, and the three classes exclude each other. -/
theorem reservedWordsNamed : Obligations.ReservedWordsNamed := by
  intro w
  change (_ ↔ _) ∧ (_ ↔ _ ∧ HasReservedBit w)
  obtain hopc | hopc := Nat.lt_or_ge (w.toNat / 2 ^ 28) 6
  · by_cases h : HasReservedBit w
    · have hclass := classify_of_hasReservedBit hopc h
      exact ⟨iff_of_false (by simp [hclass]) hopc.not_ge, iff_of_true hclass ⟨hopc, h⟩⟩
    · obtain ⟨i, hclass⟩ := classify_of_not_hasReservedBit hopc h
      exact ⟨iff_of_false (by simp [hclass]) hopc.not_ge, iff_of_false (by simp [hclass]) fun hres => h hres.2⟩
  · have hclass := classify_of_opc_ge hopc
    exact ⟨iff_of_true hclass hopc, iff_of_false (by simp [hclass]) fun hres => hopc.not_gt hres.1⟩

end Sys2Proof
end

section
/-!
What the encoding makes of the block (spec/30_encoding.md): an illegal word ends with its code at its commit (R87), and
WRROW takes the lower R bits of its data word (R84).
-/
namespace Sys2Proof.Machine

variable {p : Params}

theorem State.runWord_of_badOpcode {s : State} {w : CmdWord} (h : classify w = .badOpcode) :
    s.runWord w = .next (s.withBlk (s.blk.raise .badOpcode)) := by
  simp [State.runWord, h]

theorem State.runWord_of_badReserved {s : State} {w : CmdWord} (h : classify w = .badReserved) :
    s.runWord w = .next (s.withBlk (s.blk.raise .badReserved)) := by
  simp [State.runWord, h]

/-- Settles O32: such a word is classified as illegal, and the run of an illegal word raises its code alone (R87). -/
theorem illegalWordsRefused : Obligations.IllegalWordsRefused := by
  intro s w
  exact ⟨fun h => State.runWord_of_badOpcode (classify_of_opc_ge h),
    fun hopc h => State.runWord_of_badReserved (classify_of_hasReservedBit hopc h)⟩

/-- At the commit a step is the edge around what the word in flight makes of the block (70_reset_and_hazards.md R190). -/
theorem step_of_commit {s : State} {cmd : CmdWord} {din : Vec s.params.n} {b : Block s.params}
    (hrst : s.edgeNow.rst = false) (hphase : s.blk.phase = .busy cmd din 1) (hrun : s.runWord cmd = .next (s.withBlk b)) :
    step s = .next (s.afterEdge (b.setPhase .idle)) := by
  simp [step, clockEdge, hrst, hphase, hrun, onNext, State.committed_withBlk]

/-- Settles O34: the word's run raises its code alone, and the commit's edge sets the phase to IDLE (R87, R190). -/
theorem stepRefusesIllegalWord : Obligations.StepRefusesIllegalWord := by
  intro s cmd din hrst hphase
  exact ⟨fun h => step_of_commit hrst hphase (State.runWord_of_badOpcode h),
    fun h => step_of_commit hrst hphase (State.runWord_of_badReserved h)⟩

/-- Data words that agree below R hold the same row value (R84). -/
theorem rowOperand_congr {d d' : Vec p.n} (h : ∀ j < p.r, d.getLsbD j = d'.getLsbD j) : rowOperand d = rowOperand d' := by
  apply BitVec.eq_of_getLsbD_eq
  intro j hj
  simpa [rowOperand, hj] using h j hj

/-- Settles O9: below N the two runs write the same row value, and from N on both are refused with BAD_INDEX; neither
changes the phase. -/
theorem wrrowIgnoresUpperDin : Obligations.WrrowIgnoresUpperDin := by
  intro s i c m d d' h
  obtain hi | hi := Nat.lt_or_ge i s.params.n
  · refine ⟨(s.blk.writeRow i (rowOperand d)).setCode .ok, exec_of_pass (Block.check_wrrow hi), ?_⟩
    rw [rowOperand_congr h]
    exact exec_of_pass (Block.check_wrrow hi)
  · exact ⟨s.blk.raise .badIndex, exec_of_check (Block.check_wrrow_bad hi), exec_of_check (Block.check_wrrow_bad hi)⟩

end Sys2Proof.Machine
end

section
/-!
The matrix store commands (spec/40_matrix.md): WRROW and RDROW, each by the check that decides its outcome, and the words
that hold one of them.
-/
namespace Sys2Proof.Machine

variable {p : Params}

theorem State.runWord_of_legal {s : State} {w : CmdWord} {i : Instr} (h : classify w = .legal i) :
    s.runWord w = exec i s := by
  simp [State.runWord, h]

/-- The run of a word that only RSV keeps from being the command `i` (30_encoding.md R82). -/
theorem State.runWord_eq_ite_rsv (s : State) {w : CmdWord} {i : Instr} (hopc : w.toNat / 2 ^ 28 < 6)
    (hlegal : w.toNat / 2 ^ 16 % 2 ^ 12 = 0 → classify w = .legal i) :
    s.runWord w = if w.toNat / 2 ^ 16 % 2 ^ 12 ≠ 0 then .next (s.withBlk (s.blk.raise .badReserved)) else exec i s := by
  split_ifs with hrsv
  · exact runWord_of_badReserved (classify_of_hasReservedBit hopc (.inl hrsv))
  · exact runWord_of_legal (hlegal (not_not.1 hrsv))

theorem classify_of_opc_one {w : CmdWord} (hopc : w.toNat / 2 ^ 28 = 1) (hrsv : w.toNat / 2 ^ 16 % 2 ^ 12 = 0) :
    classify w = .legal (.wrrow (w.toNat % 2 ^ 16)) := by
  rw [classify_eq, hopc, hrsv]
  rfl

theorem classify_of_opc_two {w : CmdWord} (hopc : w.toNat / 2 ^ 28 = 2) (hrsv : w.toNat / 2 ^ 16 % 2 ^ 12 = 0) :
    classify w = .legal (.rdrow (w.toNat % 2 ^ 16)) := by
  rw [classify_eq, hopc, hrsv]
  rfl

theorem rowOperand_getLsbD (din : Vec p.n) {j : Nat} (hj : j < p.r) : (rowOperand din).getLsbD j = din.getLsbD j := by
  simp [rowOperand, hj]

/-- A row is narrower than a word, so zero-extension keeps its value (00_scope.md R7, R14). -/
theorem zextRow_toNat (v : Vec p.r) : (zextRow v).toNat = v.toNat :=
  BitVec.toNat_setWidth_of_le (Nat.sub_le p.n p.k)

/-- Only the written row reads differently afterwards (20_memory.md R72). -/
theorem Block.read_writeRow (b : Block p) (i : Nat) (v : Vec p.r) (a : Nat) :
    (b.writeRow i v).ht.read a = if a = i then some v else b.ht.read a :=
  rowReadAfterWrite p.r b.ht i a v

/-- Writing the last invalid row makes `CFG_OK` 1 (10_state.md R26). -/
theorem Block.cfgOk_writeRow {b : Block p} {i : Nat} (h : ∀ a < p.n, a ≠ i → b.rv a = true) (v : Vec p.r) :
    (b.writeRow i v).cfgOk = true := by
  refine (Block.cfgOk_iff _).2 fun a ha => (b.rv_writeRow i v a).2 ?_
  exact or_iff_not_imp_left.2 fun hne => h a ha (Ne.symm hne)

/-- Settles O8: below N the check passes and the row store is written at `i` alone (R72); from N on it fails; a word with
OPC 1 is WRROW of its ARG unless RSV is not zero. -/
theorem wrrowWritesRow : Obligations.WrrowWritesRow := by
  intro s
  refine ⟨fun i hi => ?_, fun i hi => exec_of_check (Block.check_wrrow_bad hi),
    fun w hopc => s.runWord_eq_ite_rsv (by omega) (classify_of_opc_one hopc)⟩
  have hread := s.blk.read_writeRow i (rowOperand s.blk.operand)
  refine ⟨_, exec_of_pass (Block.check_wrrow hi), ?_, ?_, rfl, fun h => Block.cfgOk_writeRow h _⟩
  · exact ⟨_, (hread i).trans (if_pos rfl), fun j hj => rowOperand_getLsbD _ hj⟩
  · exact fun a ha => (hread a).trans (if_neg ha)

/-- Settles O10: the checks on the index and on `RV` decide between the three outcomes; a word with OPC 2 is RDROW of its
ARG unless RSV is not zero. -/
theorem rdrowReadsRow : Obligations.RdrowReadsRow := by
  intro s
  refine ⟨fun i v hi hv => ⟨zextRow v, zextRow_toNat v, ?_⟩, fun i hi => exec_of_check (Block.check_rdrow_bad hi),
    fun i hi hv => exec_of_check (Block.check_rdrow_unwritten hi (by simp [Block.rv, hv])),
    fun w hopc => s.runWord_eq_ite_rsv (by omega) (classify_of_opc_two hopc)⟩
  rw [← Block.row_of_read hv]
  exact exec_of_pass (Block.check_rdrow hi (Block.rv_of_read hv))

end Sys2Proof.Machine
end

section
/-!
The decode command (spec/41_decode.md). Each outcome of a DECODE is a lemma of its own: no position to flip, a zero
syndrome, and a flip at the lowest matching row. What a codeword with flipped bits decodes to then follows from the
syndrome being linear, with the syndrome of `1 << i` row `i`.
-/
namespace Sys2Proof.Machine

variable {p : Params} {w : Nat}

/-! One flipped bit (R123). -/

/-- A flip changes the matching position alone. -/
theorem flipAt_getLsbD_ne {r : Vec p.n} {hit : Option Nat} {i : Nat}
    (h : (flipAt r hit).getLsbD i ≠ r.getLsbD i) : hit = some i := by
  cases hit with
  | none => exact absurd rfl h
  | some q =>
    by_contra hne
    have hiq : i ≠ q := fun heq => hne (congrArg some heq.symm)
    simp [flipAt, getLsbD_single, hiq] at h

theorem errFlag_eq_decide (S : Vec w) : errFlag S = decide (S ≠ 0) := by
  simp [errFlag, bne, beq_eq_decide]

theorem errFlag_iff (S : Vec w) : errFlag S = true ↔ S ≠ 0 :=
  bne_iff_ne

/-! The position DECODE flips, over the stored rows (R123 to R127). -/

/-- In correction mode a non-zero syndrome starts the search of the rows. -/
theorem Block.flipPosition_eq_firstMatch {b : Block p} {S : Vec p.r} (hm : b.mode = .correct) (hS : S ≠ 0) :
    b.flipPosition S = b.firstMatch S := by
  rw [Block.flipPosition, hm]
  exact if_neg hS

section
variable {b : Block p} {rows : Nat → Vec p.r} (h : b.holdsRows rows)
include h

theorem Block.firstMatch_rows_eq_some (S : Vec p.r) (q : Nat) :
    b.firstMatch S = some q ↔ q < p.n ∧ rows q = S ∧ ∀ j < q, rows j ≠ S := by
  refine (b.firstMatch_eq_some S q).trans (and_congr_right fun hq => ?_)
  rw [Block.row_of_holdsRows h hq]
  exact and_congr_right fun _ => forall₂_congr fun j hj => by rw [Block.row_of_holdsRows h (hj.trans hq)]

theorem Block.firstMatch_rows_eq_none (S : Vec p.r) : b.firstMatch S = none ↔ ∀ j < p.n, rows j ≠ S :=
  (b.firstMatch_eq_none S).trans (forall₂_congr fun j hj => by rw [Block.row_of_holdsRows h hj])

/-- All that the search can answer in correction mode: the lowest matching row of a non-zero syndrome, or nothing. -/
theorem Block.flipPosition_cases (hm : b.mode = .correct) (S : Vec p.r) :
    (∃ q < p.n, S ≠ 0 ∧ rows q = S ∧ (∀ j < q, rows j ≠ S) ∧ b.flipPosition S = some q) ∨
      ((S = 0 ∨ ∀ j < p.n, rows j ≠ S) ∧ b.flipPosition S = none) := by
  by_cases hS : S = 0
  · subst hS
    exact .inr ⟨.inl rfl, b.flipPosition_zero⟩
  rw [Block.flipPosition_eq_firstMatch hm hS]
  cases hfirst : b.firstMatch S with
  | some q =>
    obtain ⟨hq, hrow, hlow⟩ := (Block.firstMatch_rows_eq_some h S q).1 hfirst
    exact .inl ⟨q, hq, hS, hrow, hlow, rfl⟩
  | none => exact .inr ⟨.inr ((Block.firstMatch_rows_eq_none h S).1 hfirst), rfl⟩

end

/-! The outcomes of a DECODE that passes its check, as the whole next state. -/

/-- With no position to flip the word is passed through, and ERR alone tells of the syndrome (R124, R127). -/
theorem exec_decode_of_noFlip {s : State} (hc : s.blk.cfgOk = true)
    (hf : s.blk.flipPosition (s.blk.syndrome s.blk.operand) = none) :
    exec .decode s = .next (s.withBlk { s.blk with
      synd := s.blk.syndrome s.blk.operand, err := decide (s.blk.syndrome s.blk.operand ≠ 0), corr := false, idx := 0,
      dout := s.blk.operand, code := .ok }) := by
  rw [execDecode_of_flip hc rfl hf, errFlag_eq_decide]
  rfl

/-- A zero syndrome starts no search, in either mode (R125). -/
theorem exec_decode_of_zeroSyndrome {s : State} (hc : s.blk.cfgOk = true) (hS : s.blk.syndrome s.blk.operand = 0) :
    exec .decode s = .next (s.withBlk { s.blk with
      synd := 0, err := false, corr := false, idx := 0, dout := s.blk.operand, code := .ok }) := by
  rw [execDecode_of_flip hc hS s.blk.flipPosition_zero, errFlag_eq_decide, decide_eq_false (not_not.2 rfl)]
  rfl

/-- In correction mode the lowest row that equals a non-zero syndrome is the bit flipped (R123, R126). -/
theorem exec_decode_of_lowest {s : State} {rows : Nat → Vec s.params.r} {S : Vec s.params.r} {q : Nat}
    (h : s.blk.holdsRows rows) (hm : s.blk.mode = .correct) (hs : s.blk.syndrome s.blk.operand = S) (hS : S ≠ 0)
    (hq : q < s.params.n) (hrow : rows q = S) (hlow : ∀ j < q, rows j ≠ S) :
    exec .decode s = .next (s.withBlk { s.blk with
      synd := S, err := true, corr := true, idx := BitVec.ofNat 16 q,
      dout := s.blk.operand ^^^ (1#s.params.n <<< q), code := .ok }) := by
  have hflip : s.blk.flipPosition S = some q :=
    (Block.flipPosition_eq_firstMatch hm hS).trans ((Block.firstMatch_rows_eq_some h S q).2 ⟨hq, hrow, hlow⟩)
  rw [execDecode_of_flip (Block.cfgOk_of_holdsRows h) hs hflip, (errFlag_iff S).2 hS]
  rfl

/-- Settles O13: the lowest match is the flipped position. -/
theorem decodeFlipsLowestMatch : Obligations.DecodeFlipsLowestMatch := by
  intro s rows q h hm hS hq hrow hlow
  exact exec_decode_of_lowest h hm rfl hS hq hrow hlow

/-- Settles O14: on a miss there is no position to flip, and ERR is set for the non-zero syndrome. -/
theorem decodePassesThroughOnMiss : Obligations.DecodePassesThroughOnMiss := by
  intro s rows h hm hS hmiss
  have hflip := (Block.flipPosition_eq_firstMatch hm hS).trans ((Block.firstMatch_rows_eq_none h _).2 hmiss)
  rw [exec_decode_of_noFlip (Block.cfgOk_of_holdsRows h) hflip, decide_eq_true hS]

/-- Settles O16: detection mode flips nothing. -/
theorem detectionLeavesWord : Obligations.DetectionLeavesWord := by
  intro s rows h hm
  exact exec_decode_of_noFlip (Block.cfgOk_of_holdsRows h) (Block.flipPosition_of_detect hm _)

/-- Settles O12: the loop of R120 is the product column by column, and a DECODE writes it to SYND in both modes. -/
theorem decodeSyndromeIsProduct : Obligations.DecodeSyndromeIsProduct := by
  intro s rows h
  refine ⟨_, execDecode_of_flip (Block.cfgOk_of_holdsRows h) rfl rfl, fun j _ => ?_, errFlag_iff _, rfl⟩
  refine (s.blk.syndrome_getLsbD s.blk.operand j).trans (congrArg _ (List.map_congr_left fun i hi => ?_))
  rw [Block.row_of_holdsRows h (List.mem_range.1 hi)]

/-- Settles O17: by what the search can answer; whichever it is, a changed bit is the flipped position. -/
theorem correctionModeResult : Obligations.CorrectionModeResult := by
  intro s rows h hm
  refine ⟨_, execDecode_of_flip (Block.cfgOk_of_holdsRows h) rfl rfl, ?_, fun i j hi hj => ?_⟩
  · obtain ⟨q, hq, hS, hrow, hlow, hflip⟩ | ⟨hnone, hflip⟩ :=
      Block.flipPosition_cases h hm (s.blk.syndrome s.blk.operand)
    · rw [hflip]
      exact .inl ⟨q, hq, hS, hrow, hlow, rfl, rfl, idxValue_toNat hq⟩
    · rw [hflip]
      exact .inr ⟨hnone, rfl, rfl, rfl⟩
  · exact Option.some.inj ((flipAt_getLsbD_ne hi).symm.trans (flipAt_getLsbD_ne hj))

/-! Codewords with flipped bits: the syndrome is that of the error pattern (R121). -/

/-- The syndrome of the word with one bit is that bit's row. -/
theorem Block.syndrome_single (b : Block p) {i : Nat} (hi : i < p.n) : b.syndrome (1#p.n <<< i) = b.row i := by
  apply BitVec.eq_of_getLsbD_eq
  intro j _
  have hterm : ((List.range p.n).map fun m => (Vec.single p.n i).getLsbD m && (b.row m).getLsbD j) =
      (List.range p.n).map fun m => (b.row m).getLsbD j && decide (i = m) :=
    List.map_congr_left fun m hmem => by
      rw [getLsbD_single, decide_eq_true (List.mem_range.1 hmem), Bool.true_and, Bool.and_comm,
        decide_eq_decide.2 eq_comm]
  have hsum := foldr_xor_and_decide_eq (fun m => (b.row m).getLsbD j) i (List.nodup_range (n := p.n))
  simp only [List.mem_range, hi, decide_true, Bool.true_and] at hsum
  exact (b.syndrome_getLsbD _ j).trans ((congrArg _ hterm).trans hsum)

theorem Block.syndrome_codeword_xor {b : Block p} {V : Vec p.n} (hV : b.syndrome V = 0) (e : Vec p.n) :
    b.syndrome (V ^^^ e) = b.syndrome e := by
  rw [Block.syndrome_xor, hV]
  exact BitVec.zero_xor

section
variable {b : Block p} {rows : Nat → Vec p.r} (h : b.holdsRows rows) {V : Vec p.n} (hV : b.syndrome V = 0) {i j : Nat}
include h hV

theorem Block.syndrome_flip (hi : i < p.n) : b.syndrome (V ^^^ (1#p.n <<< i)) = rows i := by
  rw [Block.syndrome_codeword_xor hV, b.syndrome_single hi, Block.row_of_holdsRows h hi]

theorem Block.syndrome_flip_flip (hi : i < p.n) (hj : j < p.n) :
    b.syndrome (V ^^^ (1#p.n <<< i) ^^^ (1#p.n <<< j)) = rows i ^^^ rows j := by
  rw [Block.syndrome_xor, Block.syndrome_flip h hV hi, b.syndrome_single hj, Block.row_of_holdsRows h hj]

end

/-- Settles O15: an error at a zero row leaves the syndrome zero, and a zero syndrome starts no search. -/
theorem decodeAcceptsZeroSyndrome : Obligations.DecodeAcceptsZeroSyndrome := by
  intro s rows h hzero
  have hS : s.blk.syndrome s.blk.operand = 0 := by
    obtain hS | ⟨V, i, hV, hi, hrow, hop⟩ := hzero
    · exact hS
    · rw [hop, Block.syndrome_flip h hV hi, hrow]
  exact exec_decode_of_zeroSyndrome (Block.cfgOk_of_holdsRows h) hS

/-- Settles O18: the syndrome is row `i`, so what is flipped is decided by the lowest row that equals row `i`. -/
theorem singleErrorCorrected : Obligations.SingleErrorCorrected := by
  intro s rows V i h hm hV hi hop
  have hS : s.blk.syndrome s.blk.operand = rows i := by rw [hop, Block.syndrome_flip h hV hi]
  refine ⟨fun ⟨hnonzero, hinj⟩ => ?_, fun hrow => ?_, fun j hj hne hrow hlow => ?_⟩
  · have hlow : ∀ a < i, rows a ≠ rows i := fun a ha heq => ha.ne (hinj a (ha.trans hi) i hi heq)
    rw [exec_decode_of_lowest h hm hS (hnonzero i hi) hi rfl hlow, hop, BitVec.xor_assoc, BitVec.xor_self,
      BitVec.xor_zero]
  · rw [exec_decode_of_zeroSyndrome (Block.cfgOk_of_holdsRows h) (hS.trans hrow), hop]
  · rw [exec_decode_of_lowest h hm hS hne (hj.trans hi) hrow hlow, hop]

/-- Settles O19: ERR is whether the syndrome is non-zero, and the syndrome is that of the error pattern: a row for
weight 1, and for weight 2 the sum of two rows, which is zero exactly when they are equal. -/
theorem detectionFlags : Obligations.DetectionFlags := by
  intro s rows h hm
  refine ⟨_, detectionLeavesWord s rows h hm, decide_eq_true_iff, fun V hV =>
    ⟨fun e hop => ?_, fun i hi hop => ?_, fun i hi j hj hij hop => ?_⟩⟩
  · rw [hop, Block.syndrome_codeword_xor hV]
    exact decide_eq_true_iff
  · rw [hop, Block.syndrome_flip h hV hi]
    exact ⟨fun ⟨hnonzero, _⟩ => decide_eq_true (hnonzero i hi), fun hrow => decide_eq_false (not_not.2 hrow)⟩
  · rw [hop, Block.syndrome_flip_flip h hV hi hj]
    refine ⟨fun ⟨_, hinj⟩ => decide_eq_true fun hsum => hij ?_, fun hrow => decide_eq_false (not_not.2 ?_)⟩
    · exact hinj i hi j hj (BitVec.xor_eq_zero_iff.1 hsum)
    · exact BitVec.xor_eq_zero_iff.2 hrow

/-! The checks of a DECODE (R120; 60_exceptions.md R163). -/

/-- The run of a word that only its bits below OPC keep from being the command `i`, which has no operand (30_encoding.md
R82). -/
theorem State.runWord_eq_ite_rest (s : State) {w : CmdWord} {i : Instr} (hopc : w.toNat / 2 ^ 28 ∈ [0, 4, 5])
    (hlegal : w.toNat % 2 ^ 28 = 0 → classify w = .legal i) :
    s.runWord w = if w.toNat % 2 ^ 28 ≠ 0 then .next (s.withBlk (s.blk.raise .badReserved)) else exec i s := by
  split_ifs with hrest
  · have hlt : w.toNat / 2 ^ 28 < 6 := by
      simp only [List.mem_cons, List.not_mem_nil, or_false] at hopc
      omega
    have hbit : HasReservedBit w := by
      obtain hrsv | harg : w.toNat / 2 ^ 16 % 2 ^ 12 ≠ 0 ∨ w.toNat % 2 ^ 16 ≠ 0 := by omega
      · exact .inl hrsv
      · exact .inr (.inl ⟨hopc, harg⟩)
    exact runWord_of_badReserved (classify_of_hasReservedBit hlt hbit)
  · exact runWord_of_legal (hlegal (not_not.1 hrest))

/-- The one word with OPC 4 and no other bit set. -/
theorem classify_of_opc_four {w : CmdWord} (hopc : w.toNat / 2 ^ 28 = 4) (hrest : w.toNat % 2 ^ 28 = 0) :
    classify w = .legal .decode := by
  obtain rfl : w = encode .decode := BitVec.eq_of_toNat_eq (show w.toNat = 4 * 2 ^ 28 by omega)
  exact classifyOfEncode .decode rfl

/-- Settles O20: an unwritten row clears `CFG_OK`, so the check fails; a word with OPC 4 is DECODE unless another bit is
set. -/
theorem decodeChecks : Obligations.DecodeChecks := by
  refine fun s => ⟨fun i hi hread => ?_, fun w hopc =>
    s.runWord_eq_ite_rest (by rw [hopc]; decide) (classify_of_opc_four hopc)⟩
  have hrv : s.blk.rv i ≠ true := by simp [Block.rv, hread]
  have hcfg : s.blk.cfgOk = false := Bool.eq_false_iff.2 fun hok => hrv (s.blk.cfgOk_iff.1 hok i hi)
  exact exec_of_check (Block.check_decode_unconfigured hcfg)

/-- Settles O21: both runs pass the check, and the syndrome and the flipped position that they write are those of the
same rows, MODE and data word. -/
theorem decodeIsDeterministic : Obligations.DecodeIsDeterministic := by
  intro s code err corr idx dout synd inputs cycle hc
  refine ⟨_, execDecode_of_flip hc rfl rfl, ?_⟩
  refine execDecode_of_flip ?_ ?_ ?_
  · exact (Block.cfgOk_congr rfl).trans hc
  · exact Block.syndrome_congr rfl _
  · exact Block.flipPosition_congr rfl rfl _

/-! The rows `[P; I]` (R132). -/

/-- K rows of `P` and R rows of the identity are N rows. -/
theorem length_systematicRows {P : List (Vec p.r)} (hP : P.length = p.k) : (systematicRows p P).length = p.n := by
  rw [systematicRows, List.length_append, hP, identityRows, List.length_map, List.length_range, Params.r,
    Nat.add_sub_cancel' p.k_lt_n.le]

theorem Block.holdsRows_systematic {b : Block p} {P : List (Vec p.r)} (hP : P.length = p.k)
    (hb : b.ht = rowsFrom 0 (systematicRows p P)) : b.holdsRows fun i => (systematicRows p P).getD i 0 := by
  intro i hi
  have hlen : i < (systematicRows p P).length := hi.trans_eq (length_systematicRows hP).symm
  rw [hb, Memory.read_rowsFrom, if_pos (Nat.zero_le i), Nat.sub_zero, List.getElem?_eq_getElem hlen,
    ← List.getD_eq_getElem _ 0 hlen]

theorem sourceWord_encodeWord (P : List (Vec p.r)) (U : Vec p.k) : sourceWord (encodeWord P U) = U := by
  apply BitVec.eq_of_getLsbD_eq
  intro i hi
  rw [sourceWord, BitVec.getLsbD_setWidth, encodeWord_getLsbD_lt P U hi, decide_eq_true hi, Bool.true_and]

/-- Settles O48: a codeword has syndrome zero (10_state.md R45), so DECODE passes it through, and its lower K bits are
the source word. -/
theorem sourceWordRecovered : Obligations.SourceWordRecovered := by
  intro s P U hP hb hop
  have hS : s.blk.syndrome s.blk.operand = 0 := by rw [hop, codewordsHaveZeroSyndrome s.params s.blk P U hP hb]
  have hc := Block.cfgOk_of_holdsRows (Block.holdsRows_systematic hP hb)
  refine ⟨_, exec_decode_of_zeroSyndrome hc hS, hop, ?_, rfl⟩
  exact (congrArg sourceWord hop).trans (sourceWord_encodeWord P U)

end Sys2Proof.Machine
end

section
/-!
The control commands (spec/42_control.md). Each passes its checks in every state, so its meaning is its writes; the words
that hold one of them; and MODE over a command, a command word and a step.
-/
namespace Sys2Proof.Machine

variable {p : Params}

/-! The words with the OPC of a control command (30_encoding.md R82, R85). -/

/-- A word with the value of a command's encoding holds that command. -/
theorem classify_of_toNat_eq_encode {w : CmdWord} {i : Instr} (hi : i.wellFormed = true)
    (hw : w.toNat = (encode i).toNat) : classify w = .legal i := by
  rw [BitVec.eq_of_toNat_eq hw]
  exact classifyOfEncode i hi

/-- The two words with OPC 3 and none of the bits 27:1 set: bit 0 is the mode. -/
theorem classify_of_opc_three {w : CmdWord} (hopc : w.toNat / 2 ^ 28 = 3) (hrest : w.toNat % 2 ^ 28 / 2 = 0) :
    classify w = .legal (.setmode (modeOfBit (w.getLsbD 0))) := by
  have hrsv : w.toNat / 2 ^ 16 % 2 ^ 12 = 0 := by omega
  have harg : w.toNat % 2 ^ 16 / 2 = 0 := by omega
  have hbit : w.toNat % 2 ^ 16 % 2 = w.toNat % 2 := by omega
  rw [classify_eq, hopc, hrsv, harg, hbit, BitVec.getLsbD, Nat.testBit_zero]
  rfl

/-- Settles O22: NOP has no check and no writes of its own (R140); the word 0 is the only one with OPC 0 that is legal. -/
theorem nopWritesOnlyCode : Obligations.NopWritesOnlyCode := by
  refine fun s => ⟨exec_of_pass rfl, fun w hopc => s.runWord_eq_ite_rest (by rw [hopc]; decide) fun hrest => ?_⟩
  exact classify_of_toNat_eq_encode rfl (show w.toNat = 0 by omega)

/-- Settles O23: SETMODE has no check and writes MODE alone (R142); a bit of 27:1 is a bit of RSV or one of ARG above the
mode bit. -/
theorem setmodeWritesMode : Obligations.SetmodeWritesMode := by
  refine fun s => ⟨fun m => exec_of_pass rfl, fun w hopc => ?_⟩
  by_cases hrest : w.toNat % 2 ^ 28 / 2 ≠ 0
  · have hbit : HasReservedBit w := by
      obtain hrsv | harg : w.toNat / 2 ^ 16 % 2 ^ 12 ≠ 0 ∨ w.toNat % 2 ^ 16 / 2 ≠ 0 := by omega
      · exact .inl hrsv
      · exact .inr (.inr ⟨hopc, harg⟩)
    rw [if_pos hrest]
    exact State.runWord_of_badReserved (classify_of_hasReservedBit (by omega) hbit)
  · rw [if_neg hrest]
    exact State.runWord_of_legal (classify_of_opc_three hopc (not_not.1 hrest))

/-- Settles O24: the writes of CLEAR are the reset values (R144); after it no row is written, which is what the checks of
DECODE and RDROW refuse. -/
theorem clearRestoresResetState : Obligations.ClearRestoresResetState := by
  intro s
  have hclear : exec .clear s = .next (s.withBlk { Block.reset s.params with phase := s.blk.phase }) := exec_of_pass rfl
  refine ⟨hclear, fun w hopc => s.runWord_eq_ite_rest (by rw [hopc]; decide) fun hrest => ?_, fun t ht => ?_⟩
  · exact classify_of_toNat_eq_encode rfl (show w.toNat = 5 * 2 ^ 28 by omega)
  have hread : ∀ i, t.blk.ht.read i = none := by
    cases hclear.symm.trans ht
    exact Memory.read_nil
  obtain ⟨hunconfigured, -⟩ := decodeChecks t
  obtain ⟨-, -, hunwritten, -⟩ := rdrowReadsRow t
  have hn : 0 < t.params.n := Nat.zero_lt_of_lt t.params.k_lt_n
  exact ⟨hunconfigured 0 hn (hread 0), fun i hi => hunwritten i hi (hread i)⟩

/-! MODE over a command, a command word and a step (R143). -/

/-- SETMODE and CLEAR alone write MODE (10_state.md R27). -/
theorem Block.writes_mode (b : Block p) {i : Instr} (hs : ∀ x, i ≠ .setmode x) (hc : i ≠ .clear) :
    (b.writes i).mode = b.mode := by
  cases i with
  | setmode x => exact absurd rfl (hs x)
  | clear => exact absurd rfl hc
  | nop | wrrow | rdrow | decode => rfl

/-- An offer is sampled into the phase alone (70_reset_and_hazards.md R187). -/
@[simp] theorem Block.mode_afterOffer (b : Block p) (e : Edge p) : (b.afterOffer e).mode = b.mode := by
  unfold Block.afterOffer
  split <;> rfl

/-- A command word that holds no SETMODE and no CLEAR, refused or run, keeps MODE. -/
theorem State.mode_of_runWord {s : State} {w : CmdWord} {b : Block s.params} (h : s.runWord w = .next (s.withBlk b))
    (hs : ∀ x, classify w ≠ .legal (.setmode x)) (hc : classify w ≠ .legal .clear) : b.mode = s.blk.mode := by
  obtain ⟨c, hrun, -⟩ | ⟨i, hrun, hw, -⟩ := s.runWord_cases w
  · cases hrun.symm.trans h
    rfl
  · cases hrun.symm.trans h
    rw [hw] at hs hc
    exact s.blk.writes_mode (fun x hx => hs x (congrArg _ hx)) (fun hi => hc (congrArg _ hi))

/-- Settles O25: by the kinds of a step; a reset edge is excluded, the commit keeps MODE, and every other edge changes the
phase alone. -/
theorem modePersists : Obligations.ModePersists := by
  intro s t ht hrst hcommit
  obtain ⟨hr, -⟩ | ⟨-, -, hstep⟩ | ⟨-, -, hstep⟩ | ⟨cmd, din, m, -, -, -, hstep⟩ |
    ⟨cmd, din, m, -, hp, hm, b, hrun, hstep⟩ := step_cases s
  · cases hrst.symm.trans hr
  all_goals cases hstep.symm.trans ht
  · rfl
  · exact s.blk.mode_afterOffer s.edgeNow
  · rfl
  · obtain ⟨hs, hc⟩ := hcommit cmd din m hp hm
    exact State.mode_of_runWord hrun hs hc

end Sys2Proof.Machine
end

section
/-!
The result codes (spec/60_exceptions.md): the one code a command word ends with, by its class and the checks of its
command, and the frame of a word that ends with a code other than OK.
-/
namespace Sys2Proof.Machine

variable {p : Params}

/-- Settles O31: a refused word raises its code alone, and a word that does its writes ends with OK. -/
theorem refusedWordsChangeOnlyCode : Obligations.RefusedWordsChangeOnlyCode := by
  intro s w
  obtain ⟨c, hrun, -⟩ | ⟨i, hrun, -, -⟩ := s.runWord_cases w
  · exact ⟨_, hrun, fun _ => rfl⟩
  · exact ⟨_, hrun, fun hcode => absurd rfl hcode⟩

/-- A command ends with the code of the first check that fails, and with OK where none does. -/
theorem exec_code (i : Instr) (s : State) :
    ∃ b : Block s.params, exec i s = .next (s.withBlk b) ∧ b.code = (s.blk.check i).getD .ok := by
  obtain ⟨c, hcheck, hexec⟩ | ⟨hcheck, hexec⟩ := exec_cases i s
  · exact ⟨_, hexec, by simp [hcheck]⟩
  · exact ⟨_, hexec, by simp [hcheck]⟩

/-! The checks of a legal word, by its OPC and ARG. -/

/-- The code that the checks of 60_exceptions.md R164 give a word with the fields `opc` and `arg` and no reserved bit
set. -/
def Block.checkBits (b : Block p) (opc arg : Nat) : BitVec 3 :=
  if opc ∈ [1, 2] ∧ p.n ≤ arg then 3#3
  else if opc = 4 ∧ b.cfgOk = false then 4#3
  else if opc = 2 ∧ b.rv arg = false then 5#3
  else 0#3

theorem Block.bits_check_wrrow (b : Block p) (a : Nat) :
    ((b.check (.wrrow a)).getD .ok).bits = b.checkBits 1 a := by
  obtain ha | ha := Nat.lt_or_ge a p.n
  · simp [check_wrrow ha, checkBits, ha.not_ge, ResultCode.bits]
  · simp [check_wrrow_bad ha, checkBits, ha, ResultCode.bits]

theorem Block.bits_check_rdrow (b : Block p) (a : Nat) :
    ((b.check (.rdrow a)).getD .ok).bits = b.checkBits 2 a := by
  obtain ha | ha := Nat.lt_or_ge a p.n
  · cases hv : b.rv a with
    | true => simp [check_rdrow ha hv, checkBits, ha.not_ge, hv, ResultCode.bits]
    | false => simp [check_rdrow_unwritten ha hv, checkBits, ha.not_ge, hv, ResultCode.bits]
  · simp [check_rdrow_bad ha, checkBits, ha, ResultCode.bits]

theorem Block.bits_check_decode (b : Block p) (arg : Nat) :
    ((b.check .decode).getD .ok).bits = b.checkBits 4 arg := by
  cases hc : b.cfgOk with
  | true => simp [check_decode hc, checkBits, hc, ResultCode.bits]
  | false => simp [check_decode_unconfigured hc, checkBits, hc, ResultCode.bits]

/-- The command's checks read from the word that encodes it: its OPC names the command, its ARG is the index. -/
theorem Block.bits_check (b : Block p) {i : Instr} (hi : i.wellFormed = true) :
    ((b.check i).getD .ok).bits = b.checkBits ((encode i).toNat / 2 ^ 28) ((encode i).toNat % 2 ^ 16) := by
  cases i with
  | nop | clear => rfl
  | setmode m => cases m <;> rfl
  | decode => exact b.bits_check_decode 0
  | wrrow a | rdrow a =>
    have ha : a < 2 ^ 16 := of_decide_eq_true hi
    rw [← opcOf_toNat, ← argOf_toNat, encode, opcOf_cmdWord, argOf_cmdWord, BitVec.toNat_ofNat, Nat.mod_eq_of_lt ha]
    simp [bits_check_wrrow, bits_check_rdrow]

/-- Settles O30: the class of the word decides the first two codes, which come before every check; a legal word is the
encoding of its command, whose checks give the other codes in the order of R164. -/
theorem codePriority : Obligations.CodePriority := by
  intro s w
  refine ⟨?_, fun i hi => State.runWord_of_legal hi⟩
  obtain ⟨hbadOpcode, hbadReserved⟩ := reservedWordsNamed w
  cases hw : classify w with
  | badOpcode =>
    rw [if_pos (hbadOpcode.1 hw)]
    exact ⟨_, State.runWord_of_badOpcode hw, rfl⟩
  | badReserved =>
    obtain ⟨hopc, hbit⟩ := hbadReserved.1 hw
    rw [if_neg hopc.not_ge, if_pos hbit]
    exact ⟨_, State.runWord_of_badReserved hw, rfl⟩
  | legal i =>
    have hopc : ¬ 6 ≤ w.toNat / 2 ^ 28 := fun h => by cases hw.symm.trans (hbadOpcode.2 h)
    rw [if_neg hopc, if_neg fun h => by cases hw.symm.trans (hbadReserved.2 ⟨Nat.lt_of_not_le hopc, h⟩)]
    obtain ⟨b, hexec, hcode⟩ := exec_code i s
    obtain ⟨hwf, rfl⟩ := encodeOfClassify w i hw
    exact ⟨b, (State.runWord_of_legal hw).trans hexec, (congrArg _ hcode).trans (s.blk.bits_check hwf)⟩

end Sys2Proof.Machine
end

section
/-!
Reset, handshake and commit (spec/70_reset_and_hazards.md): one equation of `step` for each kind of edge, and the run from
the acceptance of a command to its commit.
-/
namespace Sys2Proof.Machine

variable {p : Params} {s : State}

/-! The offer of the host, the row-valid bits after reset, and `rst` at the coming edges. -/

theorem Block.afterOffer_of_offer (b : Block p) {e : Edge p} (h : e.cmdValid = true) :
    b.afterOffer e = b.setPhase (.busy e.cmd e.din e.latency) :=
  if_pos h

theorem Block.afterOffer_of_noOffer (b : Block p) {e : Edge p} (h : e.cmdValid = false) : b.afterOffer e = b := by
  simp [Block.afterOffer, h]

/-- No row is written after reset, and there is always a row 0 (10_state.md R26, R39). -/
theorem Block.cfgOk_reset (p : Params) : (Block.reset p).cfgOk = false := by
  refine Bool.eq_false_iff.2 fun h => ?_
  have hn := p.two_le_n
  have hrow := (Block.reset p).cfgOk_iff.1 h 0 (by omega)
  simp at hrow

/-- The block that leaves reset shows the reset values on its ports (70_reset_and_hazards.md R182). -/
theorem Block.validPorts_reset (p : Params) : ((Block.reset p).setPhase .idle).validPorts =
    { cmdReady := 1, rspValid := 1, rspCode := 0, decErr := 0, decCorr := 0, decIdx := 0, dout := 0, synd := 0,
      modeQ := 0, cfgOk := 0 } := by
  have hcfg : ((Block.reset p).setPhase .idle).cfgOk = false := (Block.cfgOk_congr rfl).trans (Block.cfgOk_reset p)
  simp [Block.validPorts, hcfg, ResultCode.bits, modeBits, Mode.bit]

/-! One edge, by what the block is doing. The commit is `step_of_commit` at a count of 1. -/

theorem step_of_reset (hrst : s.edgeNow.rst = true) : step s = .next (s.afterEdge (Block.reset s.params)) := by
  simp [step, clockEdge, hrst]

theorem step_of_leavingReset (hrst : s.edgeNow.rst = false) (hphase : s.blk.phase = .reset) :
    step s = .next (s.afterEdge (s.blk.setPhase .idle)) := by
  simp [step, clockEdge, hrst, hphase]

theorem step_of_idle (hrst : s.edgeNow.rst = false) (hphase : s.blk.phase = .idle) :
    step s = .next (s.afterEdge (s.blk.afterOffer s.edgeNow)) := by
  simp [step, clockEdge, hrst, hphase]

theorem step_of_offer (hrst : s.edgeNow.rst = false) (hphase : s.blk.phase = .idle) (h : s.edgeNow.cmdValid = true) :
    step s = .next (s.afterEdge (s.blk.setPhase (.busy s.edgeNow.cmd s.edgeNow.din s.edgeNow.latency))) := by
  rw [step_of_idle hrst hphase, s.blk.afterOffer_of_offer h]

theorem step_of_noOffer (hrst : s.edgeNow.rst = false) (hphase : s.blk.phase = .idle) (h : s.edgeNow.cmdValid = false) :
    step s = .next (s.afterEdge s.blk) := by
  rw [step_of_idle hrst hphase, s.blk.afterOffer_of_noOffer h]

theorem step_of_wait {cmd : CmdWord} {din : Vec s.params.n} {m : Nat} (hrst : s.edgeNow.rst = false)
    (hphase : s.blk.phase = .busy cmd din m) (hm : 2 ≤ m) :
    step s = .next (s.afterEdge (s.blk.setPhase (.busy cmd din (m - 1)))) := by
  have hleft : m - 1 ≠ 0 := by omega
  simp [step, clockEdge, hrst, hphase, hleft]

/-- The commit at every count that it is due at: a count of 0 is taken like 1 (log entry 13). -/
theorem step_of_due {cmd : CmdWord} {din : Vec s.params.n} {m : Nat} {b : Block s.params}
    (hrun : s.runWord cmd = .next (s.withBlk b)) (hrst : s.edgeNow.rst = false)
    (hphase : s.blk.phase = .busy cmd din m) (hm : m ≤ 1) : step s = .next (s.afterEdge (b.setPhase .idle)) := by
  have hleft : m - 1 = 0 := by omega
  simp [step, clockEdge, hrst, hphase, hleft, hrun, onNext, State.committed_withBlk]

/-! The statements about one edge. -/

/-- Settles O38: by the kinds of an edge; each reads of the host only `rst`, but for an acceptance. -/
theorem offersIgnoredUnlessAccepted : Obligations.OffersIgnoredUnlessAccepted := by
  intro s e e' rest hrst hignored
  cases hr : e.rst with
  | true => exact Eq.trans (step_of_reset hr) (Eq.symm (step_of_reset (hrst.symm.trans hr)))
  | false =>
    have hr' : e'.rst = false := hrst.symm.trans hr
    cases hp : s.blk.phase with
    | reset => exact Eq.trans (step_of_leavingReset hr hp) (Eq.symm (step_of_leavingReset hr' hp))
    | idle =>
      obtain ⟨hno, hno'⟩ : e.cmdValid = false ∧ e'.cmdValid = false := by simpa [hp, hr] using hignored
      exact Eq.trans (step_of_noOffer hr hp hno) (Eq.symm (step_of_noOffer hr' hp hno'))
    | busy cmd din m =>
      obtain hm | hm := Nat.lt_or_ge 1 m
      · exact Eq.trans (step_of_wait hr hp hm) (Eq.symm (step_of_wait hr' hp hm))
      · obtain ⟨b, hrun⟩ := State.runWord_next { s with inputs := e :: rest } cmd
        have hrun' := State.runWord_congr (s := { s with inputs := e :: rest }) (t := { s with inputs := e' :: rest })
          rfl rfl hrun
        exact (step_of_due hrun hr hp hm).trans (step_of_due hrun' hr' hp hm).symm

/-- Settles O33: a legal word's run is `exec` of its command, and the commit's edge sets the phase to IDLE. -/
theorem stepRunsDecodedCommand : Obligations.StepRunsDecodedCommand := by
  intro s cmd din i hrst hphase hlegal
  obtain ⟨b, hexec⟩ := exec_next i s
  exact ⟨b, hexec, step_of_commit hrst hphase ((State.runWord_of_legal hlegal).trans hexec)⟩

/-- Settles O35: a reset edge leaves the reset block; from RESET an edge stays there or goes to IDLE. -/
theorem resetWins : Obligations.ResetWins := by
  refine fun s => ⟨step_of_reset, fun hphase => ?_⟩
  have hports : s.ports = invalidPorts s.params s.cycle := State.ports_of_not_idle (by simp [hphase])
  refine ⟨congrArg Ports.cmdReady hports, congrArg Ports.rspValid hports, ?_⟩
  cases hrst : s.edgeNow.rst with
  | true => exact ⟨_, step_of_reset hrst, .inl rfl⟩
  | false => exact ⟨_, step_of_leavingReset hrst hphase, .inr rfl⟩

/-- Settles O36: in RESET the invariant makes the block the reset block. -/
theorem leavingReset : Obligations.LeavingReset := by
  intro s hinv hphase
  obtain ⟨-, -, -, -, -, hblk⟩ := hinv
  replace hblk : s.blk = Block.reset s.params := hblk hphase
  refine ⟨fun hrst => ⟨_, step_of_leavingReset hrst hphase, rfl, ?_⟩, fun hrst => ?_⟩
  · rw [State.ports_of_idle rfl, State.afterEdge_blk, hblk]
    exact Block.validPorts_reset s.params
  · rw [step_of_reset hrst, ← hblk]
    rfl

/-- Settles O37: in IDLE an edge makes of the block what the offer makes of it. -/
theorem idleAcceptsOffer : Obligations.IdleAcceptsOffer := by
  intro s hrst hphase
  exact ⟨congrArg Ports.cmdReady (State.ports_of_idle hphase), step_of_offer hrst hphase, step_of_noOffer hrst hphase⟩

/-- Settles O39: the count is at least 2, so no commit is due. -/
theorem busyCountsDown : Obligations.BusyCountsDown :=
  fun _ _ _ _ hrst hphase => step_of_wait hrst hphase (Nat.le_add_left ..)

/-! The run from the acceptance to the commit. -/

/-- A run takes its last step from where the run before it ends. -/
theorem coreRun_succ_last {M : Host.Core} {k : Nat} {s t : M.State} (h : M.run k s = .next t) :
    M.run (k + 1) s = M.step t := by
  induction k generalizing s with
  | zero =>
    cases h
    simp only [Host.Core.run]
    cases M.step t <;> rfl
  | succ k ih =>
    rw [Host.Core.run] at h ⊢
    split at h
    · exact ih h
    · cases h
    · cases h

/-- The machine after `k` edges that leave the block as `b`. -/
def State.afterEdges (s : State) (k : Nat) (b : Block s.params) : State :=
  { s with blk := b, inputs := s.inputs.drop k, cycle := s.cycle + k }

theorem State.afterEdge_afterEdges (k : Nat) (b c : Block s.params) :
    (s.afterEdges k b).afterEdge c = s.afterEdges (k + 1) c := by
  simp [State.afterEdges, State.afterEdge, Nat.add_assoc]

/-- Where the host drives no reset at the next edges, it drives none at the one after the first `k`. -/
theorem State.noResetFor.rst_afterEdges {m : Nat} (h : s.noResetFor m) {k : Nat} (hk : k < m) (b : Block s.params) :
    (s.afterEdges k b).edgeNow.rst = false := by
  change ((s.inputs.drop k).headD (Edge.quiet s.params)).rst = false
  cases hd : s.inputs.drop k with
  | nil => rfl
  | cons e rest =>
    have hget : s.inputs[k]? = some e := by rw [← List.head?_drop, hd, List.head?_cons]
    exact h e (List.mem_of_getElem? ((List.getElem?_take_of_lt hk).trans hget))

section
variable {e : Edge s.params} {rest : List (Edge s.params)} (hphase : s.blk.phase = .idle) (hin : s.inputs = e :: rest)
  (hrst : e.rst = false) (hvalid : e.cmdValid = true) (hnoReset : s.noResetFor (e.extraLat + 2))
include hphase hin hrst hvalid

/-- The accepting edge: the phase takes the offer, with `LAT` edges to go (R186). -/
theorem step_accepts : step s = .next (s.afterEdges 1 (s.blk.setPhase (.busy e.cmd e.din e.latency))) := by
  have hnow : s.edgeNow = e := by simp [State.edgeNow, hin]
  rw [step_of_offer (hnow ▸ hrst) hphase (hnow ▸ hvalid), hnow]
  simp [State.afterEdge, State.afterEdges]

include hnoReset

/-- `k` edges after the accepting one the command waits, its count lower by `k` (R190). -/
theorem run_waits {k : Nat} (hk : k < e.latency) : Sys2Proof.core.run (k + 1) s =
    .next (s.afterEdges (k + 1) (s.blk.setPhase (.busy e.cmd e.din (e.latency - k)))) := by
  induction k with
  | zero => exact run_succ (step_accepts hphase hin hrst hvalid)
  | succ k ih =>
    have hedge : k + 1 < e.extraLat + 2 := Nat.lt_succ_of_lt hk
    have hcount : 2 ≤ e.latency - k := by omega
    refine (coreRun_succ_last (ih (Nat.lt_of_succ_lt hk))).trans ?_
    refine (step_of_wait (hnoReset.rst_afterEdges hedge _) rfl hcount).trans ?_
    exact congrArg _ (State.afterEdge_afterEdges ..)

/-- `LAT` edges after the accepting one the block is what the run of the accepted word makes of it, in IDLE (R190). -/
theorem run_commits {b : Block s.params}
    (hrun : (s.withBlk (s.blk.setPhase (.busy e.cmd e.din 1))).runWord e.cmd = .next (s.withBlk b)) :
    Sys2Proof.core.run (e.extraLat + 2) s = .next (s.afterEdges (e.extraLat + 2) (b.setPhase .idle)) := by
  have hwait := run_waits hphase hin hrst hvalid hnoReset (Nat.lt_succ_self e.extraLat)
  have hone : e.latency - e.extraLat = 1 := by simp [Edge.latency]
  rw [hone] at hwait
  have hrun' := State.runWord_congr (s := s.withBlk (s.blk.setPhase (.busy e.cmd e.din 1)))
    (t := s.afterEdges (e.extraLat + 1) (s.blk.setPhase (.busy e.cmd e.din 1))) rfl rfl hrun
  refine (coreRun_succ_last hwait).trans ?_
  refine (step_of_commit (hnoReset.rst_afterEdges (Nat.lt_succ_self _) _) rfl hrun').trans ?_
  exact congrArg _ (State.afterEdge_afterEdges ..)

end

/-- Settles O40: each waiting edge lowers the count, and the commit is due when it is 1; the ports follow the phase. -/
theorem acceptedCommandCommits : Obligations.AcceptedCommandCommits := by
  intro s e rest hphase hin hrst hvalid hnoReset
  refine ⟨fun k hk => ?_, ?_⟩
  · refine ⟨_, rfl, _, run_waits hphase hin hrst hvalid hnoReset hk, rfl, ?_⟩
    rw [State.ports_of_not_idle (by simp [State.afterEdges])]
    exact ⟨rfl, rfl⟩
  · obtain ⟨b, hrun⟩ := (s.withBlk (s.blk.setPhase (.busy e.cmd e.din 1))).runWord_next e.cmd
    refine ⟨b, _, hrun, run_commits hphase hin hrst hvalid hnoReset hrun, rfl, ?_⟩
    rw [State.ports_of_idle rfl]
    exact ⟨rfl, rfl⟩

end Sys2Proof.Machine
end
